-- ==== Sys2Proof/Word.lean ====
section
/-! DEFINITION. The scalar types of the block and the CAN frame record (00_scope.md R7; 30_encoding.md R80). -/

namespace Sys2Proof

/-- A byte: 8 bits, an unsigned value 0..255 (00_scope.md R7). -/
abbrev Byte := BitVec 8

/-- A trouble code: an opaque 16-bit identifier (43_dtc.md R207). -/
abbrev Code := BitVec 16

/-- An arbitration id: unsigned and below 2^29 (30_encoding.md R80); ids are only compared for equality. -/
abbrev CanId := BitVec 29

/-- The bus identifier that accompanies a frame: the default, `Nat`, of the type parameter `B` of the machine (00_scope.md R6,
decision D7). Log entry 9. -/
abbrev BusId := Nat

/-- A physical quantity: the default, an exact rational, of the type parameter `P` of the machine, which is any ordered field
(00_scope.md R6, 41_value_encoder.md R158, decision D13). Log entry 4. -/
abbrev Phys := Rat

/-- A received or transmitted frame (30_encoding.md R80). `dlc` is the frame-level count of data bytes, 0..8; the
data bytes at and above `dlc` of a received frame are whatever the transport left there, so they are eight free bytes. -/
structure Frame (B : Type := BusId) where
  bus  : B
  id   : CanId
  dlc  : Fin 9
  data : Vector Byte 8
  deriving DecidableEq, Repr

end Sys2Proof
end

