-- ==== Sys2Proof/Config.lean ====
section
/-! DEFINITION. The configuration `Cfg` of the block (00_scope.md R6), the PID registry it holds (10_state.md R25, R26),
the collaborator keys and reads (10_state.md R35, 20_memory.md R60) and the free values of the model. -/

namespace Sys2Proof

/-- The keys of the physical-sensor accessor `SensRead` (10_state.md R35). -/
inductive SensorKey where
  | load | clt | iat | oilTemp | map | rpm | vehicleSpeed | tps | batteryVoltage | ethanol | lambda
  deriving DecidableEq, Repr

/-- The keys of the engine-state accessors `EngRead` (10_state.md R35). -/
inductive EngineKey where
  | stft1 | stft2 | timingAdvance
  deriving DecidableEq, Repr

/-- One collaborator value a handler can name (20_memory.md R60). -/
inductive Key where
  | sensor (k : SensorKey)
  | engine (k : EngineKey)
  deriving DecidableEq, Repr

/-- The thirteen parameters whose scaling rule goes through the generic encoder (41_value_encoder.md R143 to R156,
without lambda). -/
inductive Param where
  | load | ect | stft1 | stft2 | map | rpm | vss | tadv | iat | tps | vbat | eth | oilt
  deriving DecidableEq, Repr

/-- One collaborator read (20_memory.md R56, R60): `SensRead(k)` or `EngRead(k)`, or `DtcSnapshot()`. -/
inductive Read where
  | value (k : Key)
  | dtcSnapshot
  deriving DecidableEq, Repr

/-- The scaling rule of a descriptor added to the fourteen: a function from the collaborator values to `Phys`
(41_value_encoder.md R159). It is data, so that a configuration stays comparable, and yet any function: `free n rs` names
one of which nothing is known (`Config.freeRule n`), of the collaborator values `rs`. DESIGN CHOICE, log entry 8. -/
inductive Formula (P : Type := Phys) where
  | const (v : P)
  | read  (k : Key)
  /-- How many codes the fault-code snapshot holds. -/
  | codeCount
  | add   (a b : Formula P)
  | sub   (a b : Formula P)
  | mul   (a b : Formula P)
  | div   (a b : Formula P)
  /-- The greatest integer not above `a` (00_scope.md R8). -/
  | floor (a : Formula P)
  /-- `t` if `a > b`, else `e` (the shape of the timing fold, R150). -/
  | ifGt  (a b t e : Formula P)
  /-- The `n`-th of the functions the data forms above cannot write, of the collaborator values it reads. -/
  | free  (n : Nat) (rs : List Read)
  deriving DecidableEq, Repr

/-- The scaling rule of a value descriptor: one of the source's own, or an added one. -/
inductive Scaling (P : Type := Phys) where
  | named (p : Param)
  | added (e : Formula P)
  deriving DecidableEq, Repr

/-- What a descriptor says beside its identifier (10_state.md R25, R34): a byte width and a scaling rule; or the
marker *lambda format*; or nothing, an entry that only sets its mask bit and has no live-data handler. -/
inductive Kind (P : Type := Phys) where
  | value (width : Nat) (rule : Scaling P)
  | lambda
  | bare
  deriving DecidableEq, Repr

/-- A PID descriptor (10_state.md R25). -/
structure Descriptor (P : Type := Phys) where
  id   : Byte
  kind : Kind P
  deriving DecidableEq, Repr

/-- One registry window: `QPID[k]`, `OFF[k]` and `TAB[k]` (00_scope.md R6). The table is a finite list without its
sentinel (42_pid_bitmask.md R188, decision D32). -/
structure Window (P : Type := Phys) where
  qpid : Byte
  off  : Byte
  tab  : List (Descriptor P)
  deriving DecidableEq, Repr

/-- Which of the three windows. -/
inductive WindowIndex where
  | w0 | w1 | w2
  deriving DecidableEq, Repr

/-- `rnd`, `Phys → ℤ` (00_scope.md R6, R8, decision D14). The first three round to the nearest integer and differ in the
tie rule alone: the spec's default, the half-to-even device it compares with, a tie rule of which nothing is known.
`custom n` is any function whatever, one for each `n` (93_implementation_defined.md U10). Log entry 5. -/
inductive TieRule where
  | awayFromZero
  | toEven
  | unspecified
  | custom (n : Nat)
  deriving DecidableEq, Repr

/-- `lamq`, from lambda's scaled value to a 16-bit quantity (00_scope.md R6, decision D15): the spec's default, the
round-to-nearest device it compares with, a conversion of which only "one of the two neighbours" is known, or any
function whatever, one for each `n` (93_implementation_defined.md U10). Log entry 6. -/
inductive LambdaRule where
  | floor
  | nearest
  | unspecified
  | custom (n : Nat)
  deriving DecidableEq, Repr

/-- The build-time constants of the block (00_scope.md R6, 10_state.md R30), over the type `P` of quantities. The parameters
`PID_LOAD` .. `PID_OILT` are not stored twice: `PID_X` is the identifier of the descriptor whose rule is X (10_state.md R34, `Cfg.pidOf`,
`Cfg.pidLambda`). -/
structure Cfg (P : Type := Phys) where
  /-- `REQ_ID`. -/
  reqId   : CanId
  /-- `RESP_ID`. -/
  respId  : CanId
  /-- `TX_DLC`, 0..8. -/
  txDlc   : Fin 9
  /-- `PAD_BYTE`. -/
  padByte : Byte
  win0    : Window P
  win1    : Window P
  win2    : Window P
  /-- `DTC_CAP`; `none` is unbounded. -/
  dtcCap  : Option Nat
  /-- `rnd`. -/
  ties    : TieRule
  /-- `lamq`. -/
  lamRule : LambdaRule
  deriving DecidableEq, Repr

/-- FREE VALUE (DESIGN CHOICE, log entry 5): which neighbour a quantity half way between two integers rounds to under
`TieRule.unspecified`; `true` is the upper one. -/
opaque Config.freeTieUp {P : Type} : P → Bool

/-- FREE VALUE (DESIGN CHOICE, log entry 6): which neighbour a non-integer lambda product converts to under
`LambdaRule.unspecified`; `true` is the upper one. -/
opaque Config.freeLambdaUp {P : Type} : P → Bool

/-- FREE VALUE (DESIGN CHOICE, log entry 5): the rounding function `TieRule.custom n`. -/
opaque Config.freeRnd {P : Type} : Nat → P → Int

/-- FREE VALUE (DESIGN CHOICE, log entry 6): the conversion `LambdaRule.custom n`, "into a 16-bit quantity". -/
opaque Config.freeLamq {P : Type} : Nat → P → BitVec 16

/-- FREE VALUE (DESIGN CHOICE, log entry 8): the scaling rule `Formula.free n`, a function of the values of the keys it
reads, in their order, and of the snapshot if it reads that. -/
opaque Config.freeRule {P : Type} [Inhabited P] : Nat → List P → List Code → P

/-- FREE VALUE (DESIGN CHOICE, log entry 8): what a rule that divides this quantity by 0 gives; the spec states no result. -/
opaque Config.freeQuotient {P : Type} [Inhabited P] : P → P

/-- Whether a rounding rule rounds to the nearest integer, as the source says (41_value_encoder.md R140). -/
def TieRule.isNearest : TieRule → Bool
  | .awayFromZero => true
  | .toEven       => true
  | .unspecified  => true
  | .custom _     => false

/-- Whether a lambda conversion gives one of the two neighbours of its argument. -/
def LambdaRule.isNeighbour : LambdaRule → Bool
  | .floor       => true
  | .nearest     => true
  | .unspecified => true
  | .custom _    => false

variable {P : Type}

/-- A window of the configuration by its index. -/
def Cfg.window (c : Cfg P) : WindowIndex → Window P
  | .w0 => c.win0
  | .w1 => c.win1
  | .w2 => c.win2

/-- Every descriptor of `TAB[0]`, `TAB[1]`, `TAB[2]`, in table order. -/
def Cfg.descriptors (c : Cfg P) : List (Descriptor P) := c.win0.tab ++ c.win1.tab ++ c.win2.tab

/-- Whether a descriptor has a live-data handler: a scaling rule or the lambda marker (10_state.md R34). -/
def Kind.hasHandler : Kind P → Bool
  | .value _ _ => true
  | .lambda    => true
  | .bare      => false

/-- The descriptors with a live-data handler (10_state.md R34). -/
def Cfg.handlers (c : Cfg P) : List (Descriptor P) := c.descriptors.filter (·.kind.hasHandler)

/-- The live-data handler of a PID byte, by exact match (40_dispatch.md R114). -/
def Cfg.handler (c : Cfg P) (pid : Byte) : Option (Kind P) :=
  (c.handlers.find? (fun d => d.id == pid)).map (·.kind)

/-- Whether a kind is the value descriptor of a named parameter. -/
def Kind.isParam (p : Param) : Kind P → Bool
  | .value _ (.named q) => q == p
  | .value _ (.added _) => false
  | .lambda             => false
  | .bare               => false

/-- Whether a kind is the lambda marker. -/
def Kind.isLambda : Kind P → Bool
  | .value _ _ => false
  | .lambda    => true
  | .bare      => false

/-- `PID_LAMBDA`: the identifier of the descriptor with the lambda marker (00_scope.md R6, 10_state.md R34). -/
def Cfg.pidLambda (c : Cfg P) : Option Byte :=
  (c.handlers.find? (fun d => d.kind.isLambda)).map (·.id)

/-- `PID_X`: the identifier of the descriptor whose scaling rule is X (00_scope.md R6, 10_state.md R34). -/
def Cfg.pidOf (c : Cfg P) (p : Param) : Option Byte :=
  (c.handlers.find? (fun d => d.kind.isParam p)).map (·.id)

/-- The default registry (10_state.md R26) at the default PID numbers (00_scope.md R6, GK3). -/
def Cfg.defaultTab : WindowIndex → List (Descriptor P)
  | .w0 => [⟨0x04, .value 1 (.named .load)⟩, ⟨0x05, .value 1 (.named .ect)⟩, ⟨0x06, .value 1 (.named .stft1)⟩,
            ⟨0x08, .value 1 (.named .stft2)⟩, ⟨0x0B, .value 1 (.named .map)⟩, ⟨0x0C, .value 2 (.named .rpm)⟩,
            ⟨0x0D, .value 1 (.named .vss)⟩, ⟨0x0E, .value 1 (.named .tadv)⟩, ⟨0x0F, .value 1 (.named .iat)⟩,
            ⟨0x11, .value 1 (.named .tps)⟩]
  | .w1 => [⟨0x24, .lambda⟩]
  | .w2 => [⟨0x42, .value 2 (.named .vbat)⟩, ⟨0x52, .value 1 (.named .eth)⟩, ⟨0x5C, .value 1 (.named .oilt)⟩]

/-- The default configuration (00_scope.md R6, 10_state.md R26). Its ids, PID numbers, window numbers, table contents
and pad byte are defaults of OPEN parameters, not claims about a device: log entries 2, 3 and 7. -/
def Cfg.defaultAt (P : Type) : Cfg P where
  reqId   := 0x7DF
  respId  := 0x7E8
  txDlc   := 8
  padByte := 0x00
  win0    := ⟨0x00, 0x01, Cfg.defaultTab .w0⟩
  win1    := ⟨0x20, 0x21, Cfg.defaultTab .w1⟩
  win2    := ⟨0x40, 0x41, Cfg.defaultTab .w2⟩
  dtcCap  := none
  ties    := .awayFromZero
  lamRule := .floor

/-- The default configuration at the default type of quantities. -/
def Cfg.default : Cfg := Cfg.defaultAt Phys

end Sys2Proof
end

