-- ==== Sys2Proof/Syntax.lean ====
section
/-! DEFINITION. The instructions: one constructor per request kind of the opcode map (30_encoding.md R89, R12). -/

namespace Sys2Proof

/-- A request the block answers. A current-data request carries its one operand, the PID byte `pid` = `RX[2]`, used
whole and echoed unchanged; a trouble-code request has no operand (30_encoding.md R87). -/
inductive Instr where
  /-- Supported PIDs of window 0 (42_pid_bitmask.md R182). -/
  | sup0 (pid : Byte)
  /-- Supported PIDs of window 1 (R183). -/
  | sup1 (pid : Byte)
  /-- Supported PIDs of window 2 (R184). -/
  | sup2 (pid : Byte)
  /-- Engine load (41_value_encoder.md R143). -/
  | load (pid : Byte)
  /-- Coolant temperature (R144). -/
  | ect (pid : Byte)
  /-- Short-term fuel trim, bank 1 (R145). -/
  | stft1 (pid : Byte)
  /-- Short-term fuel trim, bank 2 (R146). -/
  | stft2 (pid : Byte)
  /-- Intake manifold pressure (R147). -/
  | map (pid : Byte)
  /-- Engine speed (R148). -/
  | rpm (pid : Byte)
  /-- Vehicle speed (R149). -/
  | vss (pid : Byte)
  /-- Timing advance (R150). -/
  | tadv (pid : Byte)
  /-- Intake air temperature (R151). -/
  | iat (pid : Byte)
  /-- Throttle position (R152). -/
  | tps (pid : Byte)
  /-- Fuel-air ratio (R153). -/
  | lambda (pid : Byte)
  /-- Battery voltage (R154). -/
  | vbat (pid : Byte)
  /-- Ethanol percent (R155). -/
  | eth (pid : Byte)
  /-- Oil temperature (R156). -/
  | oilt (pid : Byte)
  /-- Stored trouble codes, service 0x03 (43_dtc.md R202). -/
  | dtcs
  /-- Pending trouble codes, service 0x07 (R203). -/
  | dtcp
  /-- Permanent trouble codes, service 0x0A (R204). -/
  | dtcm
  deriving DecidableEq, Repr

end Sys2Proof
end

