-- ==== Sys2Proof/WellFormed.lean ====
section
/-! DEFINITION. Well-formed configurations (10_state.md R33) and requests well-formed in a configuration
(30_encoding.md R89). -/

namespace Sys2Proof

variable {P : Type}

/-- Clause 1, one window: `OFF[k] .. OFF[k]+31` lies inside 0..255, that is, `OFF[k]` is at most 224. -/
def Window.inRange (w : Window P) : Bool := decide (w.off.toNat ≤ 224)

/-- Clause 1, two windows: they share no PID. -/
def Window.disjoint (a b : Window P) : Bool :=
  decide (a.off.toNat + 31 < b.off.toNat) || decide (b.off.toNat + 31 < a.off.toNat)

/-- Whether a PID byte lies in the window. -/
def Window.holds (w : Window P) (p : Byte) : Bool :=
  decide (w.off.toNat ≤ p.toNat) && decide (p.toNat ≤ w.off.toNat + 31)

/-- Clause 2: at most 32 descriptors. -/
def Window.short (w : Window P) : Bool := decide (w.tab.length ≤ 32)

/-- Clause 3: every descriptor has its identifier in the window. -/
def Window.covers (w : Window P) : Bool := w.tab.all (fun d => w.holds d.id)

/-- Clause 4, one descriptor: width 1 or 2, or the lambda descriptor; a bare entry has no width. -/
def Kind.widthOk : Kind P → Bool
  | .value w _ => w == 1 || w == 2
  | .lambda    => true
  | .bare      => true

/-- Clause 1 of R33. -/
def Cfg.windowsOk (c : Cfg P) : Bool :=
  c.win0.inRange && c.win1.inRange && c.win2.inRange &&
  c.win0.disjoint c.win1 && c.win0.disjoint c.win2 && c.win1.disjoint c.win2

/-- Clause 2 of R33. -/
def Cfg.tabsShort (c : Cfg P) : Bool := c.win0.short && c.win1.short && c.win2.short

/-- Clause 3 of R33. -/
def Cfg.tabsCovered (c : Cfg P) : Bool := c.win0.covers && c.win1.covers && c.win2.covers

/-- Clause 4 of R33. -/
def Cfg.widthsOk (c : Cfg P) : Bool := c.descriptors.all (fun d => d.kind.widthOk)

/-- Clause 5 of R33: the PIDs with a handler and the three query PIDs are pairwise distinct. -/
def Cfg.pidsOk (c : Cfg P) : Bool :=
  decide ((c.win0.qpid :: c.win1.qpid :: c.win2.qpid :: c.handlers.map (·.id)).Nodup)

/-- Clause 6 of R33; the bounds on `REQ_ID`, `RESP_ID` and `TX_DLC` are in their types. -/
def Cfg.capOk (c : Cfg P) : Bool :=
  match c.dtcCap with
  | none   => true
  | some n => decide (2 ≤ n)

/-- A configuration the model runs: every clause of R33 but clause 4, whose breach makes it *defective*. -/
def Cfg.runnable (c : Cfg P) : Bool :=
  c.windowsOk && c.tabsShort && c.tabsCovered && c.pidsOk && c.capOk

/-- A well-formed configuration (10_state.md R33). -/
def Cfg.wf (c : Cfg P) : Bool := c.runnable && c.widthsOk

/-- Whether `pid` has the handler of the named parameter `p`. -/
def Cfg.lists (c : Cfg P) (pid : Byte) (p : Param) : Bool :=
  match c.handler pid with
  | some k => k.isParam p
  | none   => false

/-- Whether `pid` has the lambda marker. -/
def Cfg.listsLambda (c : Cfg P) (pid : Byte) : Bool :=
  match c.handler pid with
  | some k => k.isLambda
  | none   => false

/-- A request is well-formed in a configuration when its PID byte is the one the opcode map gives its row
(30_encoding.md R89): `QPID[k]`, or the identifier of a descriptor with that row's rule. -/
def Instr.wf (c : Cfg P) : Instr → Bool
  | .sup0 pid   => pid == c.win0.qpid
  | .sup1 pid   => pid == c.win1.qpid
  | .sup2 pid   => pid == c.win2.qpid
  | .load pid   => c.lists pid .load
  | .ect pid    => c.lists pid .ect
  | .stft1 pid  => c.lists pid .stft1
  | .stft2 pid  => c.lists pid .stft2
  | .map pid    => c.lists pid .map
  | .rpm pid    => c.lists pid .rpm
  | .vss pid    => c.lists pid .vss
  | .tadv pid   => c.lists pid .tadv
  | .iat pid    => c.lists pid .iat
  | .tps pid    => c.lists pid .tps
  | .lambda pid => c.listsLambda pid
  | .vbat pid   => c.lists pid .vbat
  | .eth pid    => c.lists pid .eth
  | .oilt pid   => c.lists pid .oilt
  | .dtcs       => true
  | .dtcp       => true
  | .dtcm       => true

end Sys2Proof
end

