-- ==== Sys2Proof/Decode.lean ====
section
/-! DEFINITION. The request word, the decoder (40_dispatch.md R111 to R119), the opcode map and the encoder
(30_encoding.md R82, R89, R95). -/

namespace Sys2Proof

variable {P B : Type}

/-- The request word `W = RX[0] ‖ RX[1] ‖ RX[2]` (30_encoding.md R82). -/
def wordOf (len svc pid : Byte) : BitVec 24 := len ++ svc ++ pid

/-- `len = W[23:16]`. -/
def lenField (w : BitVec 24) : Byte := w.extractLsb' 16 8

/-- `svc = W[15:8]`. -/
def svcField (w : BitVec 24) : Byte := w.extractLsb' 8 8

/-- `pid = W[7:0]`. -/
def pidField (w : BitVec 24) : Byte := w.extractLsb' 0 8

/-- The request word of a received frame: its first three data bytes, whatever `dlc` says (40_dispatch.md R122). -/
def Frame.word (f : Frame B) : BitVec 24 := wordOf f.data[0] f.data[1] f.data[2]

/-- The four classes of frames that get no response (30_encoding.md R91). None of them is a fault (60_exceptions.md
R242). -/
inductive DropClass where
  | foreignFrame
  | unknownService
  | badLength
  | unknownPid
  deriving DecidableEq, Repr

/-- What the decoder makes of a request: one of the twenty kinds; a live-data request of a descriptor the
configuration adds to them (41_value_encoder.md R159); or a drop. -/
inductive Decoded (P : Type := Phys) where
  | request (i : Instr)
  | added (pid : Byte) (width : Nat) (rule : Formula P)
  | drop (d : DropClass)
  deriving DecidableEq, Repr

/-- The request kind of a named parameter. -/
def paramInstr : Param → Byte → Instr
  | .load  => .load
  | .ect   => .ect
  | .stft1 => .stft1
  | .stft2 => .stft2
  | .map   => .map
  | .rpm   => .rpm
  | .vss   => .vss
  | .tadv  => .tadv
  | .iat   => .iat
  | .tps   => .tps
  | .vbat  => .vbat
  | .eth   => .eth
  | .oilt  => .oilt

/-- The supported-PID query of a window. -/
def supInstr : WindowIndex → Byte → Instr
  | .w0 => .sup0
  | .w1 => .sup1
  | .w2 => .sup2

/-- The live-data rule a handler selects (40_dispatch.md R114). -/
def liveRequest (pid : Byte) : Kind P → Decoded P
  | .value _ (.named p) => .request (paramInstr p pid)
  | .value w (.added e) => .added pid w e
  | .lambda             => .request (.lambda pid)
  | .bare               => .drop .unknownPid

/-- The PID select of the current-data service (40_dispatch.md R114, R115, in the order of R119). -/
def decodePid (c : Cfg P) (pid : Byte) : Decoded P :=
  if pid = c.win0.qpid then .request (.sup0 pid)
  else if pid = c.win1.qpid then .request (.sup1 pid)
  else if pid = c.win2.qpid then .request (.sup2 pid)
  else match c.handler pid with
    | some k => liveRequest pid k
    | none   => .drop .unknownPid

/-- The decoder on the request word: service, then (current data only) declared length, then PID (40_dispatch.md R112,
R113, R116, R117, R119). It is total. -/
def decodeWord (c : Cfg P) (w : BitVec 24) : Decoded P :=
  if svcField w = 0x01 then
    if lenField w = 0x02 then decodePid c (pidField w) else .drop .badLength
  else if svcField w = 0x03 then .request .dtcs
  else if svcField w = 0x07 then .request .dtcp
  else if svcField w = 0x0A then .request .dtcm
  else .drop .unknownService

/-- The decoder on a frame: the arbitration-id filter, an equality of numbers, comes first (40_dispatch.md R111). -/
def decodeFrame (c : Cfg P) (f : Frame B) : Decoded P :=
  if f.id = c.reqId then decodeWord c f.word else .drop .foreignFrame

/-- The encoder: the request word of each kind, `02 01 pp` for current data and the short form `01 ss 00` for trouble
codes (30_encoding.md R89, R95). -/
def encode : Instr → BitVec 24
  | .sup0 pid   => wordOf 0x02 0x01 pid
  | .sup1 pid   => wordOf 0x02 0x01 pid
  | .sup2 pid   => wordOf 0x02 0x01 pid
  | .load pid   => wordOf 0x02 0x01 pid
  | .ect pid    => wordOf 0x02 0x01 pid
  | .stft1 pid  => wordOf 0x02 0x01 pid
  | .stft2 pid  => wordOf 0x02 0x01 pid
  | .map pid    => wordOf 0x02 0x01 pid
  | .rpm pid    => wordOf 0x02 0x01 pid
  | .vss pid    => wordOf 0x02 0x01 pid
  | .tadv pid   => wordOf 0x02 0x01 pid
  | .iat pid    => wordOf 0x02 0x01 pid
  | .tps pid    => wordOf 0x02 0x01 pid
  | .lambda pid => wordOf 0x02 0x01 pid
  | .vbat pid   => wordOf 0x02 0x01 pid
  | .eth pid    => wordOf 0x02 0x01 pid
  | .oilt pid   => wordOf 0x02 0x01 pid
  | .dtcs       => wordOf 0x01 0x03 0x00
  | .dtcp       => wordOf 0x01 0x07 0x00
  | .dtcm       => wordOf 0x01 0x0A 0x00

/-- The `mask` column of the opcode map: all of `W` for current data, the service byte alone for trouble codes
(30_encoding.md R89). -/
def rowMask : Instr → BitVec 24
  | .sup0 _   => 0xFFFFFF
  | .sup1 _   => 0xFFFFFF
  | .sup2 _   => 0xFFFFFF
  | .load _   => 0xFFFFFF
  | .ect _    => 0xFFFFFF
  | .stft1 _  => 0xFFFFFF
  | .stft2 _  => 0xFFFFFF
  | .map _    => 0xFFFFFF
  | .rpm _    => 0xFFFFFF
  | .vss _    => 0xFFFFFF
  | .tadv _   => 0xFFFFFF
  | .iat _    => 0xFFFFFF
  | .tps _    => 0xFFFFFF
  | .lambda _ => 0xFFFFFF
  | .vbat _   => 0xFFFFFF
  | .eth _    => 0xFFFFFF
  | .oilt _   => 0xFFFFFF
  | .dtcs     => 0x00FF00
  | .dtcp     => 0x00FF00
  | .dtcm     => 0x00FF00

/-- The `match` column of the opcode map (30_encoding.md R89). -/
def rowMatch (i : Instr) : BitVec 24 := encode i &&& rowMask i

/-- The data bytes of a request frame that carries the word `w` in bytes 0, 1, 2 and zeros above (30_encoding.md R95). -/
def wordData (w : BitVec 24) : Vector Byte 8 :=
  #v[lenField w, svcField w, pidField w, 0, 0, 0, 0, 0]

/-- A table word as a request word: `spec/opcode_table.json` numbers the bits of `W` itself, bit 0 its least significant
bit, so `RX[0]` is bits 23..16 (30_encoding.md R82). Bits above the word, and bits at or above `nbits`, are not there. -/
def tableWord (nbits w : Nat) : BitVec 24 := BitVec.ofNat 24 (w % 2 ^ nbits)

/-- The instruction the decoder reads from a table word, under the default configuration. -/
def decodeTableWord (nbits w : Nat) : Option Instr :=
  match decodeWord Cfg.default (tableWord nbits w) with
  | .request i   => some i
  | .added _ _ _ => none
  | .drop _      => none

end Sys2Proof
end

