-- ==== Sys2Proof/Machine/State.lean ====
section
/-! DEFINITION. The state of the block (10_state.md R20), the inputs that drive it (00_scope.md R10, 60_exceptions.md
R252), the reasons a step can stop, and the reset state (10_state.md R31, 70_reset_and_hazards.md R270). -/

namespace Sys2Proof.Machine

/-- The collaborators' answers during one step (00_scope.md R10): one value per sensor key, `none` for a sensor that is
unavailable (20_memory.md R61); one value per engine-state key; the fault-code list in the collaborator's order. -/
structure Env (P : Type := Phys) where
  load           : Option P := none
  clt            : Option P := none
  iat            : Option P := none
  oilTemp        : Option P := none
  map            : Option P := none
  rpm            : Option P := none
  vehicleSpeed   : Option P := none
  tps            : Option P := none
  batteryVoltage : Option P := none
  ethanol        : Option P := none
  lambda         : Option P := none
  stft1          : P := by exact 0
  stft2          : P := by exact 0
  timingAdvance  : P := by exact 0
  dtc            : List Code := []
  deriving DecidableEq, Repr

/-- What the outside world does to the block next: the transport hands over a received frame `rx`, with the collaborator
values of that step (00_scope.md R10, 70_reset_and_hazards.md R282); or the block is reset (R270). -/
inductive Input (P : Type := Phys) (B : Type := BusId) where
  | request (env : Env P) (rx : Frame B)
  | reset
  deriving DecidableEq, Repr

/-- The causes of the fatal assertion, a closed list (60_exceptions.md R241). -/
inductive FatalCause where
  /-- `F_WIDTH`: the generic encoder was invoked with a width outside {1, 2}. -/
  | fWidth
  deriving DecidableEq, Repr

/-- The cause's number, the spec's own (60_exceptions.md R241). -/
def FatalCause.code : FatalCause → Nat
  | .fWidth => 1

/-- What is recorded with a fatal assertion: its cause, the PID byte and the width (60_exceptions.md R241). -/
structure FatalRecord where
  cause : FatalCause
  pid   : Byte
  width : Nat
  deriving DecidableEq, Repr

/-- The state. `cfg` is constant and `halt`, `scr` are the block's whole persistent state (10_state.md R20); the other
fields are the model's own: the record of the fault (R241), the output log (R32), the log of collaborator reads (R56),
and the inputs still to come, oldest first. The request being handled, `RX`, is the input at the head of `inbox`. -/
structure State (P : Type := Phys) (B : Type := BusId) where
  /-- The configuration record; no step changes it (10_state.md R30). -/
  cfg   : Cfg P
  /-- The fatal latch `HALT` (10_state.md R21). -/
  halt  : Bool
  /-- What the fatal assertion recorded, if it has fired (60_exceptions.md R241). -/
  fatal : Option FatalRecord
  /-- The DTC scratch `SCR`; `none` is the spec's own "unwritten; not readable" (10_state.md R22, R31). -/
  scr   : Option (List Code)
  /-- The output log `OUT`: committed frames, oldest first (10_state.md R32). -/
  out   : List (Frame B)
  /-- The collaborator reads made so far, oldest first (20_memory.md R56). -/
  reads : List Read
  /-- The inputs to come, oldest first; the head is the one the next step handles. -/
  inbox : List (Input P B)
  deriving DecidableEq, Repr

/-- Why the machine stops with a fault. The fatal assertion is not here: it is a state with `HALT` = 1 that the machine
enters and stays in (60_exceptions.md R243). -/
inductive Fault where
  /-- A request's meaning was invoked with no request at the head of `inbox`. Raised by `withRequest`; no step reaches
  it, since the dispatcher invokes a meaning only for a received frame (40_dispatch.md R110). Safe. -/
  | noRequest
  /-- `SCR` was read before its first refresh (10_state.md R31, 93_implementation_defined.md U12). Raised by
  `withScratch`; no step reaches it, since the only reader refreshes first (43_dtc.md R202). Safe. -/
  | scratchUnwritten
  deriving DecidableEq, Repr

/-- Why the machine refuses. -/
inductive Refusal where
  /-- An instruction without a meaning yet, by its mnemonic. Raised by no arm of `exec` now. Safe. -/
  | notModelled (mnemonic : String)
  /-- The configuration breaks a clause of 10_state.md R33 other than clause 4: "the model refuses it" (decision D24).
  Raised by `invoke`, and by `sendMask` for a table entry outside its window (42_pid_bitmask.md R185). Safe. -/
  | illFormedConfig
  deriving DecidableEq, Repr

/-- The state right after reset (10_state.md R31, 70_reset_and_hazards.md R270, R271), with the default configuration
and no input waiting, at any types of quantities and buses. -/
def State.resetAt (P B : Type) : State P B where
  cfg   := Cfg.defaultAt P
  halt  := false
  fatal := none
  scr   := none
  out   := []
  reads := []
  inbox := []

/-- The state right after reset, at the default types. -/
def State.reset : State := State.resetAt Phys BusId

end Sys2Proof.Machine
end

