-- ==== Sys2Proof/Machine/Operands.lean ====
section
/-! DEFINITION. The operand side of a request: the numeric primitives (00_scope.md R8), the generic encoder
(41_value_encoder.md R140), the lambda conversion (R153), byte order (20_memory.md R51) and the values the collaborators
return (20_memory.md R60, R61). -/

namespace Sys2Proof.Machine

/-- `clamp(lo, hi, x)`, on integers and on `Phys` (00_scope.md R8). -/
def clamp {α : Type} [LT α] [DecidableLT α] (lo hi x : α) : α :=
  if x < lo then lo else if x > hi then hi else x

/-- `encode(w, q) = clamp(0, 2^(8w) − 1, rnd(q))` (41_value_encoder.md R140), for any numeric type and any `rnd`, the
parameters `Phys` and `rnd` of 00_scope.md R6: an unsigned integer of `w` bytes. -/
def encodeWith {K : Type} (rnd : K → Int) (w : Nat) (q : K) : Nat := (clamp 0 (2 ^ (8 * w) - 1) (rnd q)).toNat

section OrderedField

/- `Phys` is an ordered field (00_scope.md R6) with a floor (R8); the machine needs nothing else of it. -/
variable {P : Type} [Field P] [LinearOrder P] [FloorRing P]

/-- The nearest integer, a quantity half way between two integers going up when `up` says so. -/
def nearest (up : Bool) (q : P) : Int :=
  if q - ⌊q⌋ < 1 / 2 then ⌊q⌋
  else if q - ⌊q⌋ > 1 / 2 then ⌊q⌋ + 1
  else if up then ⌊q⌋ + 1 else ⌊q⌋

/-- `rnd` with ties away from zero, by the formula of 00_scope.md R8. -/
def rndAway (q : P) : Int := if q ≥ 0 then ⌊q + 1 / 2⌋ else -⌊-q + 1 / 2⌋

/-- The lambda clamp's upper bound, 1.99 (41_value_encoder.md R153). -/
def lambdaMax : P := 199 / 100

/-- The 16-bit quantity of a lambda value under the conversion `lam`: clamped to [0, 1.99], scaled by 32768
(41_value_encoder.md R153). -/
def lambdaWith (lam : P → Nat) (l : P) : BitVec 16 := BitVec.ofNat 16 (lam (clamp 0 lambdaMax l * 32768))

/-- The timing fold: one subtraction at most, never a modulo, and the comparison is strict (41_value_encoder.md R150). -/
def foldAngle (a : P) : P := if a > 360 then a - 720 else a

/-- The scaling rules of the thirteen generic parameters (41_value_encoder.md R143 to R152, R154 to R156). -/
def scaleOf (p : Param) (v : P) : P :=
  match p with
  | .load  => v * 255 / 100
  | .ect   => v + 40
  | .stft1 => 128 * v
  | .stft2 => 128 * v
  | .map   => v
  | .rpm   => v * 4
  | .vss   => v
  | .tadv  => (foldAngle v + 64) * 2
  | .iat   => v + 40
  | .tps   => v * 255 / 100
  | .vbat  => v * 1000
  | .eth   => v * 255 / 100
  | .oilt  => v + 40

/-- The `rnd` a configuration names (00_scope.md R6, R8). -/
def rnd (t : TieRule) (q : P) : Int :=
  match t with
  | .awayFromZero => rndAway q
  | .toEven       => nearest (⌊q⌋ % 2 != 0) q
  | .unspecified  => nearest (Config.freeTieUp q) q
  | .custom n     => Config.freeRnd n q

/-- The generic encoder of a configuration (41_value_encoder.md R140). -/
def encodeValue (t : TieRule) (w : Nat) (q : P) : Nat := encodeWith (rnd t) w q

/-- The `lamq` a configuration names (00_scope.md R6, 41_value_encoder.md R153, decision D15). -/
def lamq (r : LambdaRule) (q : P) : Nat :=
  match r with
  | .floor       => ⌊q⌋.toNat
  | .nearest     => (rndAway q).toNat
  | .unspecified => (if q ≠ ⌊q⌋ ∧ Config.freeLambdaUp q then ⌊q⌋ + 1 else ⌊q⌋).toNat
  | .custom n    => (Config.freeLamq n q).toNat

/-- The lambda conversion of a configuration (41_value_encoder.md R153). -/
def lambdaQ16 (r : LambdaRule) (l : P) : BitVec 16 := lambdaWith (lamq r) l

end OrderedField

/-- The 32-bit field with the 16-bit quantity in its upper half and zeros below (41_value_encoder.md R153). -/
def lambdaField (q16 : BitVec 16) : BitVec 32 := (q16.zeroExtend 32) <<< 16

/-- `byteBE(v, n, i)`: byte `i` of the `n`-byte big-endian form of `v` (00_scope.md R8). -/
def byteBE (v n i : Nat) : Byte := BitVec.ofNat 8 (v >>> (8 * (n - 1 - i)))

/-- The `n` bytes of `v`, most significant first (20_memory.md R51). -/
def bytesBE (n v : Nat) : List Byte := (List.range n).map (byteBE v n)

/-- `hi8(v) = v[15:8]` (00_scope.md R8). -/
def hi8 (v : BitVec 16) : Byte := v.extractLsb' 8 8

/-- `lo8(v) = v[7:0]` (00_scope.md R8). -/
def lo8 (v : BitVec 16) : Byte := v.extractLsb' 0 8

/-- What the sensor accessor holds for a key; `none` when the sensor is unavailable. -/
def Env.sensor {P : Type} (e : Env P) : SensorKey → Option P
  | .load           => e.load
  | .clt            => e.clt
  | .iat            => e.iat
  | .oilTemp        => e.oilTemp
  | .map            => e.map
  | .rpm            => e.rpm
  | .vehicleSpeed   => e.vehicleSpeed
  | .tps            => e.tps
  | .batteryVoltage => e.batteryVoltage
  | .ethanol        => e.ethanol
  | .lambda         => e.lambda

/-- What an engine-state accessor returns. -/
def Env.engine {P : Type} (e : Env P) : EngineKey → P
  | .stft1         => e.stft1
  | .stft2         => e.stft2
  | .timingAdvance => e.timingAdvance

/-- The value a collaborator read returns: the keyed sensor accessor "returns zero when unavailable" (20_memory.md R61);
nothing of the kind is said of the engine-state accessors. -/
def Env.value {P : Type} [Zero P] (e : Env P) : Key → P
  | .sensor k => (e.sensor k).getD 0
  | .engine k => e.engine k

/-- The key of a read, if it is not the snapshot. -/
def keyOf : Read → Option Key
  | .value k     => some k
  | .dtcSnapshot => none

/-- The value of an added descriptor's scaling rule (41_value_encoder.md R159). -/
def evalFormula {P : Type} [Field P] [LinearOrder P] [FloorRing P] [Inhabited P] (e : Env P) : Formula P → P
  | .const v      => v
  | .read k       => e.value k
  | .codeCount    => e.dtc.length
  | .add a b      => evalFormula e a + evalFormula e b
  | .sub a b      => evalFormula e a - evalFormula e b
  | .mul a b      => evalFormula e a * evalFormula e b
  | .div a b      =>
    if evalFormula e b = 0 then Config.freeQuotient (evalFormula e a) else evalFormula e a / evalFormula e b
  | .floor a      => ⌊evalFormula e a⌋
  | .ifGt a b t f => if evalFormula e a > evalFormula e b then evalFormula e t else evalFormula e f
  | .free n rs    =>
    Config.freeRule n ((rs.filterMap keyOf).map e.value) (if .dtcSnapshot ∈ rs then e.dtc else [])

/-- The reads an added descriptor's rule names, in order, with repeats. -/
def formulaReads {P : Type} : Formula P → List Read
  | .const _      => []
  | .read k       => [.value k]
  | .codeCount    => [.dtcSnapshot]
  | .add a b      => formulaReads a ++ formulaReads b
  | .sub a b      => formulaReads a ++ formulaReads b
  | .mul a b      => formulaReads a ++ formulaReads b
  | .div a b      => formulaReads a ++ formulaReads b
  | .floor a      => formulaReads a
  | .ifGt a b t f => formulaReads a ++ formulaReads b ++ formulaReads t ++ formulaReads f
  | .free _ rs    => rs

/-- Each element once, at its last place: the reads of a rule, each it names exactly once (20_memory.md R56). -/
def readOnce : List Read → List Read
  | []      => []
  | r :: rs => if r ∈ rs then readOnce rs else r :: readOnce rs

end Sys2Proof.Machine
end

