-- ==== Sys2Proof/Machine/Ops.lean ====
section
/-! DEFINITION. The named operations over state: collaborator reads (20_memory.md R56), the scratch (43_dtc.md R200), the
response sink (44_frame_sink.md R220 to R222), the fatal assertion (60_exceptions.md R243) and reset
(70_reset_and_hazards.md R270). -/

namespace Sys2Proof.Machine

/-- What a step answers. -/
abbrev Result (P : Type := Phys) (B : Type := BusId) := Host.Outcome (State P B) Fault Refusal

variable {P B : Type}

/-- Continue a step that answered a next state. -/
def onNext (g : State P B → State P B) : Result P B → Result P B
  | .next s    => .next (g s)
  | .fault r   => .fault r
  | .refused r => .refused r

/-- Run a meaning on the request being handled, the head of `inbox`: its collaborator values and its frame `RX`
(10_state.md R24). -/
def withRequest (s : State P B) (k : Env P → Frame B → Result P B) : Result P B :=
  match s.inbox with
  | .request env rx :: _ => k env rx
  | .reset :: _          => .fault .noRequest
  | []                   => .fault .noRequest

/-- Log one collaborator read; a read has no other effect on the block (20_memory.md R56). -/
def logRead (r : Read) (s : State P B) : State P B := { s with reads := s.reads ++ [r] }

/-- `SensRead(k)` or `EngRead(k)`: the value, and the state that has made the read (20_memory.md R60). -/
def readKey [Zero P] (env : Env P) (k : Key) (s : State P B) : P × State P B := (env.value k, logRead (.value k) s)

/-- Every read of a list, in order. -/
def logReads (rs : List Read) (s : State P B) : State P B := rs.foldl (fun t r => logRead r t) s

/-- The first `DTC_CAP` elements, order kept; all of them when `DTC_CAP` is unbounded (43_dtc.md R200). -/
def capped (c : Cfg P) (l : List Code) : List Code :=
  match c.dtcCap with
  | none   => l
  | some n => l.take n

/-- `refresh()`: `SCR` takes the snapshot, which is read once (43_dtc.md R200). -/
def refresh (env : Env P) (s : State P B) : State P B :=
  let s' := logRead .dtcSnapshot s
  { s' with scr := some (capped s.cfg env.dtc) }

/-- Read `SCR`; reading it unwritten is the model's fault (10_state.md R31). -/
def withScratch (s : State P B) (k : List Code → Result P B) : Result P B :=
  match s.scr with
  | some l => k l
  | none   => .fault .scratchUnwritten

/-- `open()`: a frame on the request's bus, with `RESP_ID`, `TX_DLC` and eight `PAD_BYTE`s (44_frame_sink.md R220). -/
def openFrame (c : Cfg P) (bus : B) : Frame B where
  bus  := bus
  id   := c.respId
  dlc  := c.txDlc
  data := Vector.replicate 8 c.padByte

/-- `TX[i] <- v` (44_frame_sink.md R221). -/
def writeByte (f : Frame B) (i : Fin 8) (v : Byte) : Frame B := { f with data := f.data.set i v }

/-- A sequence of indexed byte writes, in order. -/
def writeBytes (f : Frame B) (ws : List (Fin 8 × Byte)) : Frame B := ws.foldl (fun g w => writeByte g w.1 w.2) f

/-- The writes of a response with service echo, third byte and payload: byte 0 counts the bytes that follow it
(30_encoding.md R83) and the payload starts at index 3. -/
def responseWrites (echo third : Byte) (payload : List Byte) : List (Fin 8 × Byte) :=
  [(0, BitVec.ofNat 8 (2 + payload.length)), (1, echo), (2, third)] ++ List.zip [3, 4, 5, 6] payload

/-- `commit()`: the frame as it stands joins `OUT` (44_frame_sink.md R222). -/
def commit (f : Frame B) (s : State P B) : State P B := { s with out := s.out ++ [f] }

/-- `open()`, the byte writes in increasing index, `commit()`: the one path that answers (44_frame_sink.md R223). -/
def respond (bus : B) (echo third : Byte) (payload : List Byte) (s : State P B) : Result P B :=
  .next (commit (writeBytes (openFrame s.cfg bus) (responseWrites echo third payload)) s)

/-- `raise Fatal(cause)`: `HALT <- 1`, the step ends at once, no frame is opened and `SCR` is as it was; the cause, PID
byte and width are recorded (60_exceptions.md R241, R243). -/
def raiseFatal (cause : FatalCause) (pid : Byte) (width : Nat) (s : State P B) : Result P B :=
  .next { s with halt := true, fatal := some ⟨cause, pid, width⟩ }

/-- Reset, the only way out of `HALT` (60_exceptions.md R245): the reset state, in the same configuration and with the
same inputs to come (70_reset_and_hazards.md R270, R271). -/
def resetBlock (s : State P B) : State P B := { State.resetAt P B with cfg := s.cfg, inbox := s.inbox }

/-- The input at the head of `inbox` has been handled. -/
def retire (s : State P B) : State P B := { s with inbox := s.inbox.tail }

/-- Put a request that carries the word `w` where the next step takes its request: over the request at the head of
`inbox`, keeping its bus, `dlc` and collaborator values, or before all other inputs when there is none there. -/
def placeWord (w : BitVec 24) (s : State) : State :=
  match s.inbox with
  | .request env rx :: rest =>
    { s with inbox := .request env { rx with id := s.cfg.reqId, data := wordData w } :: rest }
  | .reset :: rest => { s with inbox := .request {} ⟨0, s.cfg.reqId, 8, wordData w⟩ :: .reset :: rest }
  | [] => { s with inbox := [.request {} ⟨0, s.cfg.reqId, 8, wordData w⟩] }

end Sys2Proof.Machine
end

