-- ==== Sys2Proof/Machine/Dtc.lean ====
section
/-! DEFINITION. The DTC Response Builder and the three trouble-code requests (43_dtc.md R200 to R204). -/

namespace Sys2Proof.Machine

variable {P B : Type}

/-- The two bytes of each code, most significant first (43_dtc.md R201). -/
def codeBytes (l : List Code) : List Byte := l.flatMap (fun c => [hi8 c, lo8 c])

/-- `sendDtc(s, L)`: format T with the first two codes at most, in input order; the count byte is the number of codes in
this frame (43_dtc.md R201). -/
def sendDtc (bus : B) (svc : Byte) (l : List Code) (s : State P B) : Result P B :=
  let k := min l.length 2
  respond bus (0x40 + svc) (BitVec.ofNat 8 k) (codeBytes (l.take k)) s

/-- `DTCS`: refresh the scratch, then send it (R202). -/
def execDtcs (s : State P B) : Result P B :=
  withRequest s fun env rx =>
    let s' := refresh env s
    withScratch s' fun l => sendDtc rx.bus 0x03 l s'

/-- `DTCP`: always answered as if zero codes exist; nothing is read (R203). -/
def execDtcp (s : State P B) : Result P B := withRequest s fun _ rx => sendDtc rx.bus 0x07 [] s

/-- `DTCM`: always answered as if zero codes exist; nothing is read (R204). -/
def execDtcm (s : State P B) : Result P B := withRequest s fun _ rx => sendDtc rx.bus 0x0A [] s

end Sys2Proof.Machine
end

