-- ==== Sys2Proof/Machine/LiveData.lean ====
section
/-! DEFINITION. The Value Encoder and the live-data requests (41_value_encoder.md R140 to R156, R159). -/

namespace Sys2Proof.Machine

variable {P B : Type} [Field P] [LinearOrder P] [FloorRing P]

/-- `sendValue(pid, w, q)`, the common tail of every generic live-data request: the width check, which comes before
`open()`, then format V1 or V2 (41_value_encoder.md R141, R142). -/
def sendValue (bus : B) (pid : Byte) (w : Nat) (q : P) (s : State P B) : Result P B :=
  if w = 1 ∨ w = 2 then respond bus 0x41 pid (bytesBE w (encodeValue s.cfg.ties w q)) s
  else raiseFatal .fWidth pid w s

/-- The byte width of the descriptor that handles `pid`; the width its rule names when no value descriptor does (no
dispatched request is in that case). -/
def descriptorWidth {P : Type} (c : Cfg P) (pid : Byte) (ruleWidth : Nat) : Nat :=
  match c.handler pid with
  | some (.value w _) => w
  | some .lambda      => ruleWidth
  | some .bare        => ruleWidth
  | none              => ruleWidth

/-- A generic live-data request: read the one key it names, scale, send (41_value_encoder.md R142). -/
def liveValue (pid : Byte) (ruleWidth : Nat) (k : Key) (scale : P → P) (s : State P B) : Result P B :=
  withRequest s fun env rx =>
    let (v, s') := readKey env k s
    sendValue rx.bus pid (descriptorWidth s.cfg pid ruleWidth) (scale v) s'

/-- `LOAD`: value × 255/100, width 1 (R143). -/
def execLoad (pid : Byte) (s : State P B) : Result P B := liveValue pid 1 (.sensor .load) (scaleOf .load) s

/-- `ECT`: value + 40, width 1 (R144). -/
def execEct (pid : Byte) (s : State P B) : Result P B := liveValue pid 1 (.sensor .clt) (scaleOf .ect) s

/-- `STFT1`: 128 × trimFraction, width 1 (R145). -/
def execStft1 (pid : Byte) (s : State P B) : Result P B := liveValue pid 1 (.engine .stft1) (scaleOf .stft1) s

/-- `STFT2`: 128 × trimFraction, width 1 (R146). -/
def execStft2 (pid : Byte) (s : State P B) : Result P B := liveValue pid 1 (.engine .stft2) (scaleOf .stft2) s

/-- `MAP`: identity, width 1 (R147). -/
def execMap (pid : Byte) (s : State P B) : Result P B := liveValue pid 1 (.sensor .map) (scaleOf .map) s

/-- `RPM`: value × 4, width 2 (R148). -/
def execRpm (pid : Byte) (s : State P B) : Result P B := liveValue pid 2 (.sensor .rpm) (scaleOf .rpm) s

/-- `VSS`: identity, width 1 (R149). -/
def execVss (pid : Byte) (s : State P B) : Result P B := liveValue pid 1 (.sensor .vehicleSpeed) (scaleOf .vss) s

/-- `TADV`: (foldedAngle + 64) × 2, width 1 (R150). -/
def execTadv (pid : Byte) (s : State P B) : Result P B := liveValue pid 1 (.engine .timingAdvance) (scaleOf .tadv) s

/-- `IAT`: value + 40, width 1 (R151). -/
def execIat (pid : Byte) (s : State P B) : Result P B := liveValue pid 1 (.sensor .iat) (scaleOf .iat) s

/-- `TPS`: value × 255/100, width 1 (R152). -/
def execTps (pid : Byte) (s : State P B) : Result P B := liveValue pid 1 (.sensor .tps) (scaleOf .tps) s

/-- `VBAT`: value × 1000, width 2 (R154). -/
def execVbat (pid : Byte) (s : State P B) : Result P B := liveValue pid 2 (.sensor .batteryVoltage) (scaleOf .vbat) s

/-- `ETH`: value × 255/100, width 1 (R155). -/
def execEth (pid : Byte) (s : State P B) : Result P B := liveValue pid 1 (.sensor .ethanol) (scaleOf .eth) s

/-- `OILT`: value + 40, width 1 (R156). -/
def execOilt (pid : Byte) (s : State P B) : Result P B := liveValue pid 1 (.sensor .oilTemp) (scaleOf .oilt) s

/-- `LAMBDA`: its own 4-byte format, with no width check and no exception (R153). -/
def execLambda (pid : Byte) (s : State P B) : Result P B :=
  withRequest s fun env rx =>
    let (l, s') := readKey env (.sensor .lambda) s
    respond rx.bus 0x41 pid (bytesBE 4 (lambdaField (lambdaQ16 s.cfg.lamRule l)).toNat) s'

/-- The request of an added descriptor, "handled by `sendValue` exactly as the rules above" (R159). -/
def execAdded [Inhabited P] (pid : Byte) (w : Nat) (rule : Formula P) (s : State P B) : Result P B :=
  withRequest s fun env rx =>
    sendValue rx.bus pid w (evalFormula env rule) (logReads (readOnce (formulaReads rule)) s)

end Sys2Proof.Machine
end

