-- ==== Sys2Proof/Machine/PidMask.lean ====
section
/-! DEFINITION. The Supported-PID Bitmask Builder and the three query requests (42_pid_bitmask.md R180 to R184). -/

namespace Sys2Proof.Machine

variable {P B : Type}

/-- The bit of PID `p` in a window whose base offset is `off`, at index 31 + off − p (42_pid_bitmask.md R180). -/
def pidBit (off p : Byte) : BitVec 32 := 1#32 <<< (31 + off.toNat - p.toNat)

/-- `mask(k)`: logical OR over the table's entries, in table order (42_pid_bitmask.md R180). -/
def maskOf (w : Window P) : BitVec 32 := w.tab.foldl (fun m d => m ||| pidBit w.off d.id) 0

/-- `sendMask(k)`: format V4 with all four mask bytes, whatever bits are set (42_pid_bitmask.md R181). The shift of an
entry outside the window has no defined meaning, so such a table is refused (R185). -/
def sendMask (k : WindowIndex) (pid : Byte) (s : State P B) : Result P B :=
  withRequest s fun _ rx =>
    if (s.cfg.window k).covers then respond rx.bus 0x41 pid (bytesBE 4 (maskOf (s.cfg.window k)).toNat) s
    else .refused .illFormedConfig

/-- `SUP0` (R182). -/
def execSup0 (pid : Byte) (s : State P B) : Result P B := sendMask .w0 pid s

/-- `SUP1` (R183). -/
def execSup1 (pid : Byte) (s : State P B) : Result P B := sendMask .w1 pid s

/-- `SUP2` (R184). -/
def execSup2 (pid : Byte) (s : State P B) : Result P B := sendMask .w2 pid s

end Sys2Proof.Machine
end

