-- ==== Sys2Proof/Machine/Dispatch.lean ====
section
/-! DEFINITION. The meaning of each request kind (40_dispatch.md R119). -/

namespace Sys2Proof.Machine

def exec (i : Instr) (s : State) : Host.Outcome State Fault Refusal :=
  match i with
  -- the supported-PID queries (42_pid_bitmask.md)
  | .sup0 pid => Sys2Proof.Machine.execSup0 pid s
  | .sup1 pid => Sys2Proof.Machine.execSup1 pid s
  | .sup2 pid => Sys2Proof.Machine.execSup2 pid s
  -- live data (41_value_encoder.md)
  | .load pid => Sys2Proof.Machine.execLoad pid s
  | .ect pid => Sys2Proof.Machine.execEct pid s
  | .stft1 pid => Sys2Proof.Machine.execStft1 pid s
  | .stft2 pid => Sys2Proof.Machine.execStft2 pid s
  | .map pid => Sys2Proof.Machine.execMap pid s
  | .rpm pid => Sys2Proof.Machine.execRpm pid s
  | .vss pid => Sys2Proof.Machine.execVss pid s
  | .tadv pid => Sys2Proof.Machine.execTadv pid s
  | .iat pid => Sys2Proof.Machine.execIat pid s
  | .tps pid => Sys2Proof.Machine.execTps pid s
  | .lambda pid => Sys2Proof.Machine.execLambda pid s
  | .vbat pid => Sys2Proof.Machine.execVbat pid s
  | .eth pid => Sys2Proof.Machine.execEth pid s
  | .oilt pid => Sys2Proof.Machine.execOilt pid s
  -- trouble codes (43_dtc.md)
  | .dtcs => Sys2Proof.Machine.execDtcs s
  | .dtcp => Sys2Proof.Machine.execDtcp s
  | .dtcm => Sys2Proof.Machine.execDtcm s

end Sys2Proof.Machine
end

