-- ==== Sys2Proof/Machine/Invoke.lean ====
section
/-! DEFINITION. The Request Dispatcher's step (40_dispatch.md R110, R119), and the machine at any types of quantities and
buses (00_scope.md R6). -/

namespace Sys2Proof.Machine

variable {P B : Type} [Field P] [LinearOrder P] [FloorRing P] [Inhabited P]

/-- Run what the decoder made of a request, `ex` being the meaning of the request kinds; a drop has no effect at all
(40_dispatch.md R119). -/
def runDecoded (ex : Instr → State P B → Result P B) (d : Decoded P) (s : State P B) : Result P B :=
  match d with
  | .request i          => ex i s
  | .added pid w rule   => execAdded pid w rule s
  | .drop _             => .next s

/-- The handling of one received frame: nothing at all while halted (40_dispatch.md R110), else the decision tree of
R119, once. -/
def handle (ex : Instr → State P B → Result P B) (rx : Frame B) (s : State P B) : Result P B :=
  if s.halt then .next s else runDecoded ex (decodeFrame s.cfg rx) s

/-- One step: the input at the head of `inbox` is handled and retired. With no input waiting the block is idle
(60_exceptions.md R256). An ill-formed configuration that is not merely defective is refused (10_state.md R33). -/
def invoke (ex : Instr → State P B → Result P B) (s : State P B) : Result P B :=
  if s.cfg.runnable then
    match s.inbox with
    | []                 => .next s
    | .reset :: _        => .next (retire (resetBlock s))
    | .request _ rx :: _ => onNext retire (handle ex rx s)
  else .refused .illFormedConfig

/-- The meaning of each request kind at any types: `exec`, which is this at the default types, with the same meanings. -/
def execAt (i : Instr) (s : State P B) : Result P B :=
  match i with
  | .sup0 pid   => execSup0 pid s
  | .sup1 pid   => execSup1 pid s
  | .sup2 pid   => execSup2 pid s
  | .load pid   => execLoad pid s
  | .ect pid    => execEct pid s
  | .stft1 pid  => execStft1 pid s
  | .stft2 pid  => execStft2 pid s
  | .map pid    => execMap pid s
  | .rpm pid    => execRpm pid s
  | .vss pid    => execVss pid s
  | .tadv pid   => execTadv pid s
  | .iat pid    => execIat pid s
  | .tps pid    => execTps pid s
  | .lambda pid => execLambda pid s
  | .vbat pid   => execVbat pid s
  | .eth pid    => execEth pid s
  | .oilt pid   => execOilt pid s
  | .dtcs       => execDtcs s
  | .dtcp       => execDtcp s
  | .dtcm       => execDtcm s

/-- One step of the machine at any types: the step function of 00_scope.md R10 with `Phys` and `BusId` as parameters. -/
def stepAt (s : State P B) : Result P B := invoke execAt s

end Sys2Proof.Machine
end

