-- ==== Sys2Proof/Machine/Step.lean ====
section
/-! DEFINITION. The step, and the placing of one instruction where the next step takes it. -/

namespace Sys2Proof.Machine

/-- One step of the machine (40_dispatch.md R110). -/
def step (s : State) : Host.Outcome State Fault Refusal := invoke exec s

/-- `s` with a request frame that carries the table word `w` as the next input (log entry 10). -/
def State.withFetchWord (s : State) (nbits w : Nat) : State := placeWord (tableWord nbits w) s

end Sys2Proof.Machine
end

