-- ==== Sys2Proof/Machine/Flags.lean ====
section
/-! DEFINITION. Flags. The block has no condition codes; its one sticky flag is `HALT` (10_state.md R29), whose setting is
`raiseFatal` in Machine/Ops.lean. Here is the one flag-like value the source computes. -/

namespace Sys2Proof.Machine

/-- The DTC status byte with the literal meaning of the source's expression, `count ≠ 0 ? 0x80 : 0 + count` (43_dtc.md
R206). No response carries it (decision D19). -/
def dtcStatus (count : Nat) : Byte := if count ≠ 0 then 0x80 else BitVec.ofNat 8 (0 + count)

end Sys2Proof.Machine
end

