-- ==== Sys2Proof/Safety.lean ====
section
/-! DEFINITION. The terms claims are stated in: responses written as their meaningful bytes (30_encoding.md R83 to R86),
what a request reads (20_memory.md R56), what every committed frame satisfies (44_frame_sink.md R226) and the invariant
of the machine. -/

namespace Sys2Proof.Machine

variable {P B : Type}

/-- The frame whose meaningful bytes are `bs`: the envelope of 30_encoding.md R84, `PAD_BYTE` above them. -/
def replyFrame (c : Cfg P) (bus : B) (bs : List Byte) : Frame B :=
  ⟨bus, c.respId, c.txDlc, Vector.ofFn (fun i : Fin 8 => bs.getD i c.padByte)⟩

/-- The state after the reads `rs` and one committed response with the meaningful bytes `bs`; all else as it was. -/
def State.answered (s : State P B) (rs : List Read) (bus : B) (bs : List Byte) : State P B :=
  { s with reads := s.reads ++ rs, out := s.out ++ [replyFrame s.cfg bus bs] }

/-- The meaningful bytes of a width-1 response (format V1, 41_value_encoder.md R142). -/
def bytesV1 (pid : Byte) (r : Nat) : List Byte := [0x03, 0x41, pid, BitVec.ofNat 8 r]

/-- The meaningful bytes of a width-2 response (format V2, 41_value_encoder.md R142), high byte first. -/
def bytesV2 (pid : Byte) (r : Nat) : List Byte :=
  [0x04, 0x41, pid, BitVec.ofNat 8 (r / 256), BitVec.ofNat 8 (r % 256)]

/-- The meaningful bytes of a value response of width 1 or 2. -/
def valueBytes (w : Nat) (pid : Byte) (r : Nat) : List Byte := if w = 1 then bytesV1 pid r else bytesV2 pid r

/-- What a generic live-data row of the opcode map says, the shape rules R143 to R152 and R154 to R156 share:
(1) the default configuration lists the row's parameter at the width `w` the row names;
(2) in any configuration the model runs, a PID listed with this rule has the request word `02 01 pp` decode to the row's
instruction;
(3) the instruction reads the one key, scales its value, and answers the encoded integer on the request's bus at the width
of its descriptor, the row's own or the other one a well-formed table may give it; the rest of the state is unchanged. -/
def LiveRow (p : Param) (mk : Byte → Instr) (w : Nat) (k : Key) (scale : Phys → Phys) : Prop :=
  (∃ pid : Byte, Cfg.default.pidOf p = some pid ∧ Cfg.default.handler pid = some (.value w (.named p))) ∧
  (∀ (c : Cfg) (pid : Byte), c.runnable = true → c.lists pid p = true →
    decodeWord c (wordOf 0x02 0x01 pid) = .request (mk pid)) ∧
  (∀ (pid : Byte) (n : Nat) (s : State) (env : Env) (rx : Frame) (rest : List Input),
    s.inbox = .request env rx :: rest → s.cfg.handler pid = some (.value n (.named p)) → (n = 1 ∨ n = 2) →
    exec (mk pid) s =
      .next (s.answered [.value k] rx.bus (valueBytes n pid (encodeValue s.cfg.ties n (scale (env.value k))))))

/-- The collaborator reads each request names, each exactly once (20_memory.md R56, R143 to R156, R202 to R204). -/
def readsOf : Instr → List Read
  | .sup0 _   => []
  | .sup1 _   => []
  | .sup2 _   => []
  | .load _   => [.value (.sensor .load)]
  | .ect _    => [.value (.sensor .clt)]
  | .stft1 _  => [.value (.engine .stft1)]
  | .stft2 _  => [.value (.engine .stft2)]
  | .map _    => [.value (.sensor .map)]
  | .rpm _    => [.value (.sensor .rpm)]
  | .vss _    => [.value (.sensor .vehicleSpeed)]
  | .tadv _   => [.value (.engine .timingAdvance)]
  | .iat _    => [.value (.sensor .iat)]
  | .tps _    => [.value (.sensor .tps)]
  | .lambda _ => [.value (.sensor .lambda)]
  | .vbat _   => [.value (.sensor .batteryVoltage)]
  | .eth _    => [.value (.sensor .ethanol)]
  | .oilt _   => [.value (.sensor .oilTemp)]
  | .dtcs     => [.dtcSnapshot]
  | .dtcp     => []
  | .dtcm     => []

/-- What every committed frame satisfies, whatever the request (44_frame_sink.md R226), without the clauses that name
the request. -/
structure FrameOk {P B : Type} (c : Cfg P) (f : Frame B) : Prop where
  id_eq     : f.id = c.respId
  dlc_eq    : f.dlc = c.txDlc
  length_in : f.data[0] = 2 ∨ f.data[0] = 3 ∨ f.data[0] = 4 ∨ f.data[0] = 6
  echo_in   : f.data[1] = 0x41 ∨ f.data[1] = 0x43 ∨ f.data[1] = 0x47 ∨ f.data[1] = 0x4A
  count_ok  : f.data[1] ≠ 0x41 → f.data[2].toNat ≤ 2 ∧ f.data[0].toNat = 2 + 2 * f.data[2].toNat
  padded    : ∀ i : Fin 8, f.data[0].toNat < i.val → f.data[i] = c.padByte

/-- The clauses of R226 that name the request `rx` a frame answers. -/
structure Answers {B : Type} (rx f : Frame B) : Prop where
  bus_eq  : f.bus = rx.bus
  echo_eq : f.data[1] = 0x40 + rx.data[1]
  pid_eq  : f.data[1] = 0x41 → f.data[2] = rx.data[2]

/-- The invariant of the machine, over a configuration that may be defective: the fault record is there exactly while
`HALT` = 1 and names an unsupported width; the scratch is within its capacity; every committed frame has the form of
R226. -/
structure Inv {P B : Type} (s : State P B) : Prop where
  runnable   : s.cfg.runnable = true
  halt_iff   : s.halt = s.fatal.isSome
  width_bad  : ∀ r : FatalRecord, s.fatal = some r → r.width ≠ 1 ∧ r.width ≠ 2
  scr_capped : ∀ l : List Code, s.scr = some l → ∀ n : Nat, s.cfg.dtcCap = some n → l.length ≤ n
  out_ok     : ∀ f : Frame B, f ∈ s.out → FrameOk s.cfg f

/-- A good state: the configuration is well-formed and the block has not halted (60_exceptions.md R243). -/
structure Good {P B : Type} (s : State P B) : Prop where
  wf      : s.cfg.wf = true
  running : s.halt = false

/-- A frame with its bus renamed. -/
def renameFrame {C : Type} (g : B → C) (f : Frame B) : Frame C := ⟨g f.bus, f.id, f.dlc, f.data⟩

/-- An input with the bus of its frame renamed. -/
def renameInput {C : Type} (g : B → C) : Input P B → Input P C
  | .request env rx => .request env (renameFrame g rx)
  | .reset          => .reset

/-- A state with the bus of every frame renamed, received or committed. -/
def State.renameBuses {C : Type} (g : B → C) (s : State P B) : State P C where
  cfg   := s.cfg
  halt  := s.halt
  fatal := s.fatal
  scr   := s.scr
  out   := s.out.map (renameFrame g)
  reads := s.reads
  inbox := s.inbox.map (renameInput g)

/-- A result with its buses renamed. -/
def renameResult {C : Type} (g : B → C) : Result P B → Result P C
  | .next s    => .next (s.renameBuses g)
  | .fault r   => .fault r
  | .refused r => .refused r

/-- Whether an input is a request the block answers: it carries `REQ_ID` and matches a row of the opcode map
(30_encoding.md R89, R91). -/
def answerable (c : Cfg P) : Input P B → Bool
  | .reset        => false
  | .request _ rx =>
    match decodeFrame c rx with
    | .request _   => true
    | .added _ _ _ => true
    | .drop _      => false

end Sys2Proof.Machine
end

