-- ==== Sys2Proof/Certificates/Slice0/Obligations.lean ====
section
/-! DEFINITION. The statements for the provers. Each docstring names the rules of spec/ it formalises; where a clause
rests on a decision of the spec (D<n> of 92_eei_decisions.md) or on a choice of the model, it says so. -/

open Sys2Proof Sys2Proof.Machine

/-! ## Reset, the latch and the invariant -/

/-- Reset (10_state.md R31, 70_reset_and_hazards.md R270, R271; decision D22): the reset state, and the state any
configuration is in after a reset input. That a reset is an input of the model is log entry 11. -/
def Obligations.ResetLeavesLatchClearAndScratchUnwritten : Prop :=
  (State.reset.halt = false ∧ State.reset.scr = none ∧ State.reset.out = [] ∧ State.reset.fatal = none ∧
    State.reset.cfg.wf = true) ∧
  ∀ (s : State) (rest : List Input), s.cfg.runnable = true → s.inbox = .reset :: rest →
    ∃ t, step s = .next t ∧ t.halt = false ∧ t.scr = none ∧ t.out = [] ∧ t.fatal = none ∧ t.reads = [] ∧
      t.cfg = s.cfg ∧ t.inbox = rest

/-- The invariant holds of the reset state, and of a well-formed configuration in the state right after its reset. -/
def Obligations.ResetStateMeetsInvariant : Prop :=
  Inv State.reset ∧ ∀ (c : Cfg) (inputs : List Input), c.runnable = true →
    Inv { State.reset with cfg := c, inbox := inputs }

/-- Every step keeps the invariant, from every state that meets it, at any types of quantities and buses (00_scope.md R6;
log entries 4, 9): the fault record stands exactly while `HALT` = 1 and
names a width outside {1, 2} (60_exceptions.md R241), the scratch stays within `DTC_CAP` (43_dtc.md R200), and every
frame of `OUT` has the form of 44_frame_sink.md R226. -/
def Obligations.StepKeepsInvariant : Prop :=
  (∀ s t : State, Inv s → step s = .next t → Inv t) ∧
  ∀ (P B : Type) [Field P] [LinearOrder P] [FloorRing P] [Inhabited P] (s t : State P B),
    Inv s → stepAt s = .next t → Inv t

/-- While `HALT` = 1 a received frame has no effect whatever (40_dispatch.md R110, decision D20): no read, no frame, no
change but that the input is gone. -/
def Obligations.HaltedBlockTakesNoAction : Prop :=
  ∀ (s : State) (env : Env) (rx : Frame) (rest : List Input),
    s.cfg.runnable = true → s.halt = true → s.inbox = .request env rx :: rest →
    step s = .next { s with inbox := rest }

/-- Only reset clears `HALT` (10_state.md R21, 60_exceptions.md R245, decision D20). -/
def Obligations.OnlyResetClearsHalt : Prop :=
  ∀ s t : State, step s = .next t → s.halt = true → t.halt = false → s.inbox.head? = some .reset

/-- No step changes the configuration: "PID tables are build-time constants, never mutated" (10_state.md R25, R30). -/
def Obligations.ConfigurationIsNeverMutated : Prop :=
  ∀ (k : Nat) (s t : State), Sys2Proof.core.run k s = .next t → t.cfg = s.cfg

/-- Headline: from a well-formed configuration that has not halted, no run of any length ever stops or halts, whatever
frames arrive and whatever the collaborators return; each step takes one input (60_exceptions.md R240, R241;
40_dispatch.md R121). -/
def Obligations.WellFormedRunNeverFaultsOrHalts : Prop :=
  ∀ (k : Nat) (s : State), Good s →
    ∃ t : State, Sys2Proof.core.run k s = .next t ∧ Good t ∧ t.cfg = s.cfg ∧ t.inbox = s.inbox.drop k

/-- Headline: along any run of a well-formed configuration without a reset, `OUT` only grows at its end, and by exactly
one frame for each request that matches a row of the opcode map, none for any other (40_dispatch.md R118,
44_frame_sink.md R225, 20_memory.md R62). -/
def Obligations.RunAnswersEachMatchingRequestExactlyOnce : Prop :=
  ∀ (k : Nat) (s t : State), Good s → Input.reset ∉ s.inbox.take k → Sys2Proof.core.run k s = .next t →
    s.out <+: t.out ∧ t.out.length = s.out.length + (s.inbox.take k).countP (answerable s.cfg)

/-- At any types of quantities and buses (00_scope.md R6; log entries 4, 9) the machine runs on: from a well-formed
configuration that has not halted, a step answers a next state with one input fewer, and so it goes on. -/
def Obligations.WellFormedStepGoesOnAtEveryType : Prop :=
  ∀ (P B : Type) [Field P] [LinearOrder P] [FloorRing P] [Inhabited P] (s : State P B), Good s →
    ∃ t : State P B, stepAt s = .next t ∧ Good t ∧ t.cfg = s.cfg ∧ t.inbox = s.inbox.tail

/-! ## The dispatcher -/

/-- 40_dispatch.md R111: a frame with another arbitration id, on any bus, is ignored with no side effect; one with
`REQ_ID` is accepted from any bus and decoded by its request word alone. -/
def Obligations.ForeignArbitrationIdIsIgnored : Prop :=
  (∀ (c : Cfg) (rx : Frame), rx.id = c.reqId → decodeFrame c rx = decodeWord c rx.word) ∧
  ∀ (s : State) (env : Env) (rx : Frame) (rest : List Input),
    s.cfg.runnable = true → s.inbox = .request env rx :: rest → rx.id ≠ s.cfg.reqId →
    step s = .next { s with inbox := rest }

/-- 40_dispatch.md R113: a current-data request whose data byte 0 is not 2 is dropped; one whose data byte 0 is 2 passes
on to the PID select. -/
def Obligations.WrongDeclaredLengthIsDropped : Prop :=
  (∀ (c : Cfg) (rx : Frame), rx.id = c.reqId → rx.data[1] = 0x01 → rx.data[0] = 0x02 →
    decodeFrame c rx = decodePid c rx.data[2]) ∧
  ∀ (s : State) (env : Env) (rx : Frame) (rest : List Input),
    s.cfg.runnable = true → s.inbox = .request env rx :: rest → rx.data[1] = 0x01 → rx.data[0] ≠ 0x02 →
    step s = .next { s with inbox := rest }

/-- 40_dispatch.md R115 (the handler set is decision D12): a current-data request whose PID byte is no query PID and no
identifier of a descriptor with a handler is ignored. -/
def Obligations.UnrecognisedPidIsIgnored : Prop :=
  ∀ (s : State) (env : Env) (rx : Frame) (rest : List Input),
    s.cfg.runnable = true → s.inbox = .request env rx :: rest → rx.data[1] = 0x01 → rx.data[0] = 0x02 →
    (∀ k : WindowIndex, rx.data[2] ≠ (s.cfg.window k).qpid) →
    (∀ d : Descriptor, d ∈ s.cfg.descriptors → d.kind ≠ .bare → d.id ≠ rx.data[2]) →
    step s = .next { s with inbox := rest }

/-- 40_dispatch.md R116: a request for a service other than the four is dropped. -/
def Obligations.UnknownServiceIsDropped : Prop :=
  ∀ (s : State) (env : Env) (rx : Frame) (rest : List Input),
    s.cfg.runnable = true → s.inbox = .request env rx :: rest →
    rx.data[1] ≠ 0x01 → rx.data[1] ≠ 0x03 → rx.data[1] ≠ 0x07 → rx.data[1] ≠ 0x0A →
    step s = .next { s with inbox := rest }

/-- 30_encoding.md R91: the four classes are all there is; every other frame is a request the block serves. -/
def Obligations.FrameIsDroppedExactlyInTheFourClasses : Prop :=
  ∀ (c : Cfg) (rx : Frame),
    (∃ d : DropClass, decodeFrame c rx = .drop d) ↔
      (rx.id ≠ c.reqId ∨
       (rx.data[1] ≠ 0x01 ∧ rx.data[1] ≠ 0x03 ∧ rx.data[1] ≠ 0x07 ∧ rx.data[1] ≠ 0x0A) ∨
       (rx.data[1] = 0x01 ∧ rx.data[0] ≠ 0x02) ∨
       (rx.data[1] = 0x01 ∧ rx.data[0] = 0x02 ∧ (∀ k : WindowIndex, rx.data[2] ≠ (c.window k).qpid) ∧
        ∀ d : Descriptor, d ∈ c.descriptors → d.kind ≠ .bare → d.id ≠ rx.data[2]))

/-- A step runs the decoded request: when the head of `inbox` is a received frame with `REQ_ID` whose request word
decodes to `i`, the step is the meaning of `i` at that state, and the input is then retired (40_dispatch.md R110, R119;
that the request waits in the model's `inbox` is log entry 10). A drop retires the input and does nothing else. -/
def Obligations.StepRunsTheDecodedRequest : Prop :=
  ∀ (s : State) (env : Env) (rx : Frame) (rest : List Input),
    s.cfg.runnable = true → s.halt = false → s.inbox = .request env rx :: rest → rx.id = s.cfg.reqId →
    (∀ i : Instr, decodeWord s.cfg rx.word = .request i → step s = onNext retire (exec i s)) ∧
    (∀ d : DropClass, decodeWord s.cfg rx.word = .drop d → step s = .next (retire s))

/-- With no input waiting the block is idle and the step changes nothing (60_exceptions.md R256; the model's choice, log
entry 10). -/
def Obligations.BlockIsIdleWithoutInput : Prop :=
  ∀ s : State, s.cfg.runnable = true → s.inbox = [] → step s = .next s

/-- A word placed where the next step takes its request runs exactly as its instruction (the model's loader, log entry
10). -/
def Obligations.PlacedWordRunsAsItsInstruction : Prop :=
  ∀ (s : State) (i : Instr), s.cfg.runnable = true → s.halt = false → i.wf s.cfg = true →
    step (s.withFetchWord 24 (encode i).toNat) = onNext retire (exec i (s.withFetchWord 24 (encode i).toNat))

/-- 40_dispatch.md R122 (decision D5): the step depends on nothing of the request but its id, its bus and its data
bytes 0, 1, 2; `dlc` and bytes 3..7 may be anything. -/
def Obligations.DlcAndTrailingBytesAreNotExamined : Prop :=
  ∀ (s : State) (env : Env) (rx ry : Frame) (rest : List Input),
    rx.id = ry.id → rx.bus = ry.bus → rx.data[0] = ry.data[0] → rx.data[1] = ry.data[1] → rx.data[2] = ry.data[2] →
    step { s with inbox := .request env rx :: rest } = step { s with inbox := .request env ry :: rest }

/-- 40_dispatch.md R111, 60_exceptions.md R254 (decision D7): the bus is not tested. The same request on another bus is
handled alike, and only the bus of the response differs. -/
def Obligations.BusIsOnlyCopiedToTheResponse : Prop :=
  ∀ (s t : State) (env : Env) (rx : Frame) (bus : BusId) (rest : List Input),
    step { s with inbox := .request env rx :: rest } = .next t →
    ∃ u, step { s with inbox := .request env { rx with bus := bus } :: rest } = .next u ∧
      u.halt = t.halt ∧ u.fatal = t.fatal ∧ u.scr = t.scr ∧ u.reads = t.reads ∧ u.cfg = t.cfg ∧ u.inbox = t.inbox ∧
      ((t.out = s.out ∧ u.out = s.out) ∨
       ∃ f : Frame, t.out = s.out ++ [f] ∧ u.out = s.out ++ [{ f with bus := bus }])

/-- `BusId` is an opaque type parameter (00_scope.md R6, decision D7; log entry 9): for any two types of buses, and any type
of quantities, renaming the buses of all frames, in any way, and stepping is stepping and renaming. Nothing of a bus is
used but to copy it. The second clause says so of the machine at the default types. -/
def Obligations.BusNamesAreOpaque : Prop :=
  (∀ (P B C : Type) [Field P] [LinearOrder P] [FloorRing P] [Inhabited P] (g : B → C) (s : State P B),
    stepAt (s.renameBuses g) = renameResult g (stepAt s)) ∧
  ∀ (g : BusId → BusId) (s : State), step (s.renameBuses g) = onNext (State.renameBuses g) (step s)

/-- 40_dispatch.md R118, 44_frame_sink.md R225, R226: a step commits at most one frame; it carries the request's bus,
`RESP_ID` and `TX_DLC`; its length is 2, 3, 4 or 6; its echo is 0x40 + `RX[1]`; its third byte is `RX[2]` in a value
response and half the code bytes in a trouble-code response; and it is `PAD_BYTE` above its declared length. -/
def Obligations.StepCommitsAtMostOneWellFormedFrame : Prop :=
  ∀ (s t : State) (env : Env) (rx : Frame) (rest : List Input),
    s.inbox = .request env rx :: rest → step s = .next t →
    t.out = s.out ∨ ∃ f : Frame, t.out = s.out ++ [f] ∧ FrameOk s.cfg f ∧ Answers rx f

/-! ## Encoding -/

/-- A few words of the opcode map (30_encoding.md R89), as its table prints them, and what they decode to; the last two
are dropped. -/
def Obligations.OpcodeMapWordsDecode : Prop :=
  decodeWord Cfg.default 0x020100 = .request (.sup0 0x00) ∧
  decodeWord Cfg.default 0x02010C = .request (.rpm 0x0C) ∧
  decodeWord Cfg.default 0x020124 = .request (.lambda 0x24) ∧
  decodeWord Cfg.default 0x02015C = .request (.oilt 0x5C) ∧
  decodeWord Cfg.default 0xFF03FF = .request .dtcs ∧
  decodeWord Cfg.default 0x03010C = .drop .badLength ∧
  decodeWord Cfg.default 0x020110 = .drop .unknownPid

/-- Decode of encode is the instruction, in every configuration the model runs, for every well-formed request of every
kind and every PID byte the configuration admits (30_encoding.md R89, R90). -/
def Obligations.DecodeOfEncodeIsTheInstruction : Prop :=
  ∀ (c : Cfg) (i : Instr), c.runnable = true → i.wf c = true → decodeWord c (encode i) = .request i

/-- The decoder is the opcode map: a word decodes to a request exactly when the request is well-formed and the word
matches its row, `W & mask = match` (30_encoding.md R82, R89). -/
def Obligations.WordDecodesExactlyWhenItsRowMatches : Prop :=
  ∀ (c : Cfg) (w : BitVec 24) (i : Instr), c.runnable = true →
    (decodeWord c w = .request i ↔ i.wf c = true ∧ w &&& rowMask i = rowMatch i)

/-- 30_encoding.md R90: no request word matches two rows of the opcode map. -/
def Obligations.NoWordMatchesTwoRows : Prop :=
  ∀ (c : Cfg) (w : BitVec 24) (i j : Instr), c.runnable = true → i.wf c = true → j.wf c = true →
    w &&& rowMask i = rowMatch i → w &&& rowMask j = rowMatch j → i = j

/-- 10_state.md R34 (decision D12), 40_dispatch.md R114: the PIDs with a live-data handler are exactly the identifiers
of the descriptors with a scaling rule or the lambda marker, whatever window they stand in. -/
def Obligations.HandlerSetIsTheRegistry : Prop :=
  ∀ (c : Cfg) (pid : Byte) (k : Kind), c.runnable = true →
    (c.handler pid = some k ↔ (⟨pid, k⟩ : Descriptor) ∈ c.descriptors ∧ k ≠ .bare)

/-! ## The value encoder -/

/-- `LOAD`, `TPS`, `ETH`: value × 255/100, width 1 (41_value_encoder.md R143, R152, R155). The answer at the other width a
table may give is log entry 34, the bus log entry 16 (D7), the pad bytes log entry 17 (D8). -/
def Obligations.PercentRequestsAnswerTheirByte : Prop :=
  LiveRow .load Instr.load 1 (.sensor .load) (fun v => v * 255 / 100) ∧
  LiveRow .tps Instr.tps 1 (.sensor .tps) (fun v => v * 255 / 100) ∧
  LiveRow .eth Instr.eth 1 (.sensor .ethanol) (fun v => v * 255 / 100)

/-- `ECT`, `IAT`, `OILT`: value + 40, width 1 (R144, R151, R156). The other width is log entry 34, the bus log entry 16, the
pad bytes log entry 17. -/
def Obligations.TemperatureRequestsAnswerTheirByte : Prop :=
  LiveRow .ect Instr.ect 1 (.sensor .clt) (fun v => v + 40) ∧
  LiveRow .iat Instr.iat 1 (.sensor .iat) (fun v => v + 40) ∧
  LiveRow .oilt Instr.oilt 1 (.sensor .oilTemp) (fun v => v + 40)

/-- `STFT1`, `STFT2`: 128 × trimFraction, width 1, each from its own bank (R145, R146). The other width is log entry 34, the
bus log entry 16, the pad bytes log entry 17. -/
def Obligations.FuelTrimRequestsAnswerTheirByte : Prop :=
  LiveRow .stft1 Instr.stft1 1 (.engine .stft1) (fun t => 128 * t) ∧
  LiveRow .stft2 Instr.stft2 1 (.engine .stft2) (fun t => 128 * t)

/-- `MAP`, `VSS`: identity, width 1 (R147, R149). The other width is log entry 34, the bus log entry 16, the pad bytes log
entry 17. -/
def Obligations.IdentityRequestsAnswerTheirByte : Prop :=
  LiveRow .map Instr.map 1 (.sensor .map) (fun v => v) ∧
  LiveRow .vss Instr.vss 1 (.sensor .vehicleSpeed) (fun v => v)

/-- `RPM`: value × 4, and `VBAT`: value × 1000, width 2, high byte first (R148, R154). The other width is log entry 34, the
bus log entry 16, the pad bytes log entry 17. -/
def Obligations.TwoByteRequestsAnswerBigEndian : Prop :=
  LiveRow .rpm Instr.rpm 2 (.sensor .rpm) (fun v => v * 4) ∧
  LiveRow .vbat Instr.vbat 2 (.sensor .batteryVoltage) (fun v => v * 1000)

/-- `TADV`: (foldedAngle + 64) × 2, width 1, where 720 is subtracted once from an angle above 360 and from no other
(R150; outside [0, 720) the fold is decision D27). The other width is log entry 34, the bus log entry 16, the pad bytes log
entry 17. -/
def Obligations.TimingRequestFoldsOnceAndAnswersItsByte : Prop :=
  LiveRow .tadv Instr.tadv 1 (.engine .timingAdvance) (fun a => (foldAngle a + 64) * 2) ∧
  ∀ a : Phys, (a > 360 → foldAngle a = a - 720) ∧ (a ≤ 360 → foldAngle a = a)

/-- `LAMBDA` (R153): clamped to [0, 1.99], scaled by 32768, the 16-bit quantity in the upper half of the field and zeros
below; one read, no width check, no exception, under every configuration. The conversion `lamq` is decision D15 (log
entry 6), the default PID log entry 2, the bus log entry 16, the pad bytes log entry 17. -/
def Obligations.LambdaRequestAnswersItsOwnFormat : Prop :=
  Cfg.default.handler 0x24 = some .lambda ∧
  (∀ (c : Cfg) (pid : Byte), c.runnable = true → c.handler pid = some .lambda →
    decodeWord c (wordOf 0x02 0x01 pid) = .request (.lambda pid)) ∧
  ∀ (pid : Byte) (s : State) (env : Env) (rx : Frame) (rest : List Input), s.inbox = .request env rx :: rest →
    let l := env.value (.sensor .lambda)
    let c := if l < 0 then 0 else if l > 199 / 100 then 199 / 100 else l
    let q16 := lamq s.cfg.lamRule (c * 32768)
    q16 < 65536 ∧
    exec (.lambda pid) s = .next (s.answered [.value (.sensor .lambda)] rx.bus
      [0x06, 0x41, pid, BitVec.ofNat 8 (q16 / 256), BitVec.ofNat 8 (q16 % 256), 0x00, 0x00])

/-- R153's bounds, at every type of quantities, an ordered field with a floor (00_scope.md R6): the default conversion never
exceeds 65208, reaches it exactly from 1.99 on, is 0 exactly below 1/32768. Every conversion to a neighbour is exact on a
product that is an integer in range; an arbitrary `lamq`, log entry 6, need not be. -/
def Obligations.LambdaQuantityStaysBelow65209 : Prop :=
  ∀ (K : Type) [Field K] [LinearOrder K] [IsStrictOrderedRing K] [FloorRing K],
    (∀ l : K, (lambdaQ16 .floor l).toNat ≤ 65208) ∧
    (∀ l : K, 199 / 100 ≤ l → (lambdaQ16 .floor l).toNat = 65208) ∧
    (∀ l : K, (lambdaQ16 .floor l).toNat = 0 ↔ l < 1 / 32768) ∧
    ∀ (r : LambdaRule) (n : Nat), r.isNeighbour = true → n ≤ 65208 → (lambdaQ16 r ((n : K) / 32768)).toNat = n

/-- An added descriptor is handled by `sendValue` exactly as the fourteen (R159): its request decodes, reads each key
its rule names once, and answers the encoded value of its rule at width 1 or 2, whatever function the rule is. The form of
its rule is log entry 8, the bus log entry 16, the pad bytes log entry 17. -/
def Obligations.AddedDescriptorIsHandledLikeTheOthers : Prop :=
  ∀ (pid : Byte) (w : Nat) (rule : Formula) (s : State) (env : Env) (rx : Frame) (rest : List Input),
    s.cfg.runnable = true → s.halt = false → s.cfg.handler pid = some (.value w (.added rule)) →
    s.inbox = .request env rx :: rest → rx.id = s.cfg.reqId → rx.word = wordOf 0x02 0x01 pid → (w = 1 ∨ w = 2) →
    ∃ rs : List Read, rs.Nodup ∧ (∀ r : Read, r ∈ rs ↔ r ∈ formulaReads rule) ∧
      step s = .next (retire (s.answered rs rx.bus
        (valueBytes w pid (encodeValue s.cfg.ties w (evalFormula env rule)))))

/-- 41_value_encoder.md R141, 60_exceptions.md R240, R241, R243 (decisions D20, D21): a generic live-data request whose
descriptor has a width outside {1, 2} makes its reads, sets `HALT`, records the cause, the PID and the width, and has no
other effect: no frame, and `SCR` as it was. The second clause says so of an added descriptor (log entry 8). -/
def Obligations.UnsupportedWidthHaltsWithNoFrame : Prop :=
  (∀ (p : Param) (pid : Byte) (w : Nat) (s : State) (env : Env) (rx : Frame) (rest : List Input),
    s.inbox = .request env rx :: rest → s.cfg.handler pid = some (.value w (.named p)) → w ≠ 1 → w ≠ 2 →
    exec (paramInstr p pid) s =
      .next { s with halt := true, fatal := some ⟨.fWidth, pid, w⟩, reads := s.reads ++ readsOf (paramInstr p pid) }) ∧
  ∀ (pid : Byte) (w : Nat) (rule : Formula) (s : State) (env : Env) (rx : Frame) (rest : List Input),
    s.inbox = .request env rx :: rest → w ≠ 1 → w ≠ 2 →
    ∃ rs : List Read, rs.Nodup ∧ (∀ r : Read, r ∈ rs ↔ r ∈ formulaReads rule) ∧
      execAdded pid w rule s =
        .next { s with halt := true, fatal := some ⟨.fWidth, pid, w⟩, reads := s.reads ++ rs }

/-- 60_exceptions.md R240: the requests that can never raise the fatal assertion, under any configuration. -/
def Obligations.OnlyGenericLiveDataCanHalt : Prop :=
  ∀ (i : Instr) (s t : State), exec i s = .next t →
    (t.halt = s.halt ∧ t.fatal = s.fatal) ∨ ∃ (p : Param) (pid : Byte), i = paramInstr p pid ∧ t.halt = true

/-- 41_value_encoder.md R157 law 1: the result is an unsigned integer of `w` bytes, under every `rnd` a configuration can
name, and for every numeric type and every function `rnd` on it (00_scope.md R6). -/
def Obligations.EncodedValueFitsItsWidth : Prop :=
  (∀ (t : TieRule) (w : Nat) (q : Phys), encodeValue t w q ≤ 2 ^ (8 * w) - 1) ∧
  ∀ (K : Type) (f : K → Int) (w : Nat) (q : K), encodeWith f w q ≤ 2 ^ (8 * w) - 1

/-- R157 law 2: the encoder is monotone, under every tie rule, and for every ordered field and every function `rnd` on it
that rounds to the nearest integer (00_scope.md R6, R8). An arbitrary `rnd`, log entry 5, need not be monotone. -/
def Obligations.EncoderIsMonotone : Prop :=
  (∀ (t : TieRule) (w : Nat) (q r : Phys), t.isNearest = true → q ≤ r → encodeValue t w q ≤ encodeValue t w r) ∧
  ∀ (K : Type) [Field K] [LinearOrder K] [IsStrictOrderedRing K] (f : K → Int) (w : Nat) (q r : K),
    (∀ x : K, |(f x : K) - x| ≤ 1 / 2) → q ≤ r → encodeWith f w q ≤ encodeWith f w r

/-- R157 law 3: the encoder is exact on integers in range, under every tie rule, and for every ordered field and every
function `rnd` on it that rounds to the nearest integer (00_scope.md R6, R8). -/
def Obligations.EncoderIsExactOnIntegersInRange : Prop :=
  (∀ (t : TieRule) (w n : Nat), t.isNearest = true → n ≤ 2 ^ (8 * w) - 1 → encodeValue t w (n : Phys) = n) ∧
  ∀ (K : Type) [Field K] [LinearOrder K] [IsStrictOrderedRing K] (f : K → Int) (w n : Nat),
    (∀ x : K, |(f x : K) - x| ≤ 1 / 2) → n ≤ 2 ^ (8 * w) - 1 → encodeWith f w (n : K) = n

/-- R157 law 4 (ties away from zero, decision D14), for the machine's quantities and for every ordered field with a
floor: the result is the top of the range exactly from 2^(8w) − 3/2 on, and 0 exactly below 1/2; nothing wraps around. -/
def Obligations.EncoderSaturatesAtBothEnds : Prop :=
  (∀ (w : Nat) (q : Phys), 1 ≤ w →
    (encodeValue .awayFromZero w q = 2 ^ (8 * w) - 1 ↔ (2 : Phys) ^ (8 * w) - 3 / 2 ≤ q) ∧
    (encodeValue .awayFromZero w q = 0 ↔ q < 1 / 2)) ∧
  ∀ (K : Type) [Field K] [LinearOrder K] [IsStrictOrderedRing K] [FloorRing K] (w : Nat) (q : K), 1 ≤ w →
    (encodeWith rndAway w q = 2 ^ (8 * w) - 1 ↔ (2 : K) ^ (8 * w) - 3 / 2 ≤ q) ∧
    (encodeWith rndAway w q = 0 ↔ q < 1 / 2)

/-- 00_scope.md R8: `rnd` gives an integer nearest to its argument under every tie rule; under the default, one that
lies farther from zero when there are two (decision D14). Every function to a nearest integer is one of them: at each
quantity some tie rule gives its value. It holds at every type of quantities, an ordered field with a floor (R6). -/
def Obligations.RoundingGivesTheNearestInteger : Prop :=
  ∀ (K : Type) [Field K] [LinearOrder K] [IsStrictOrderedRing K] [FloorRing K],
    (∀ (t : TieRule) (q : K), t.isNearest = true → |(rnd t q : K) - q| ≤ 1 / 2) ∧
    (∀ q : K, |(rnd .awayFromZero q : K) - q| = 1 / 2 → |q| < |(rnd .awayFromZero q : K)|) ∧
    ∀ (q : K) (n : Int), |(n : K) - q| ≤ 1 / 2 ↔ ∃ up : Bool, nearest up q = n

/-- `Phys` and `BusId` are type parameters of the machine (00_scope.md R6, decisions D7, D13; log entries 4, 9): `step` is
its instance at the defaults, and at any types a live-data request of the registry is answered by one read, the row's
scaling formula and the generic encoder, or by the lambda conversion, as at the defaults. -/
def Obligations.EveryTypeRunsTheSameLiveData : Prop :=
  (∀ s : State, step s = stepAt s) ∧
  ∀ (P B : Type) [Field P] [LinearOrder P] [FloorRing P] [Inhabited P] (s : State P B) (env : Env P) (rx : Frame B)
    (rest : List (Input P B)) (pid : Byte),
    s.cfg.runnable = true → s.halt = false → s.inbox = .request env rx :: rest → rx.id = s.cfg.reqId →
    rx.word = wordOf 0x02 0x01 pid →
    (∀ (p : Param) (w : Nat) (k : Key), s.cfg.handler pid = some (.value w (.named p)) → (w = 1 ∨ w = 2) →
      readsOf (paramInstr p pid) = [.value k] →
      stepAt s = .next (retire (s.answered [.value k] rx.bus
        (valueBytes w pid (encodeValue s.cfg.ties w (scaleOf p (env.value k))))))) ∧
    (s.cfg.handler pid = some .lambda →
      stepAt s = .next (retire (s.answered [.value (.sensor .lambda)] rx.bus
        ([0x06, 0x41, pid] ++ bytesBE 2 (lambdaQ16 s.cfg.lamRule (env.value (.sensor .lambda))).toNat ++ [0x00, 0x00]))))

/-- `Phys` is a type parameter (00_scope.md R6, decision D13; log entry 4): in every ordered field with a floor, a rational
quantity gets the very byte it gets as a rational, and every quantity gets a byte that some rational one gets, at every
width, under the default `rnd` and `lamq`. -/
def Obligations.EveryOrderedFieldGivesTheSameBytes : Prop :=
  ∀ (K : Type) [Field K] [LinearOrder K] [IsStrictOrderedRing K] [FloorRing K],
    (∀ (p : Param) (v : Phys) (w : Nat),
      encodeValue .awayFromZero w (scaleOf p (v : K)) = encodeValue .awayFromZero w (scaleOf p v)) ∧
    (∀ (p : Param) (x : K), ∃ v : Phys, ∀ w : Nat,
      encodeValue .awayFromZero w (scaleOf p x) = encodeValue .awayFromZero w (scaleOf p v)) ∧
    (∀ v : Phys, lambdaQ16 .floor (v : K) = lambdaQ16 .floor v) ∧
    ∀ x : K, ∃ v : Phys, lambdaQ16 .floor x = lambdaQ16 .floor v

/-! ## The mask builder -/

/-- `SUP0`, `SUP1`, `SUP2` (42_pid_bitmask.md R180 to R184): the answer is four mask bytes, most significant first; bit
`b` stands for PID `OFF[k] + 31 − b` and is set exactly when the window's table lists it. Nothing is read, and nothing
else changes. The bus of the answer is log entry 16 (D7), its pad bytes log entry 17 (D8). -/
def Obligations.MaskQueriesReportTheirTable : Prop :=
  (∀ (c : Cfg) (k : WindowIndex), c.runnable = true →
    decodeWord c (wordOf 0x02 0x01 (c.window k).qpid) = .request (supInstr k (c.window k).qpid)) ∧
  ∀ (k : WindowIndex) (pid : Byte) (s : State) (env : Env) (rx : Frame) (rest : List Input),
    (s.cfg.window k).covers = true → s.inbox = .request env rx :: rest →
    ∃ m : BitVec 32,
      (∀ b : Nat, b ≤ 31 → (m.getLsbD b = true ↔
        ∃ d : Descriptor, d ∈ (s.cfg.window k).tab ∧ d.id.toNat = (s.cfg.window k).off.toNat + 31 - b)) ∧
      exec (supInstr k pid) s = .next (s.answered [] rx.bus
        [0x06, 0x41, pid, m.extractLsb' 24 8, m.extractLsb' 16 8, m.extractLsb' 8 8, m.extractLsb' 0 8])

/-- 42_pid_bitmask.md R186 law 1: "table order does not affect the result". -/
def Obligations.MaskIgnoresTableOrder : Prop :=
  ∀ (q off : Byte) (l m : List Descriptor), l.Perm m → maskOf ⟨q, off, l⟩ = maskOf ⟨q, off, m⟩

/-- 42_pid_bitmask.md R186 law 4: the number of set bits is the number of distinct identifiers in the table. -/
def Obligations.MaskCountsDistinctIdentifiers : Prop :=
  ∀ w : Window, w.covers = true →
    ((List.range 32).filter (fun b => (maskOf w).getLsbD b)).length = ((w.tab.map (·.id)).dedup).length

/-- 42_pid_bitmask.md R187: every listed PID has its bit set, and a PID absent from all three tables has its bit clear in
every window's mask. -/
def Obligations.MaskBitsFollowTheTables : Prop :=
  ∀ (c : Cfg) (k : WindowIndex), c.runnable = true →
    (∀ d : Descriptor, d ∈ (c.window k).tab →
      (maskOf (c.window k)).getLsbD (31 + (c.window k).off.toNat - d.id.toNat) = true) ∧
    ∀ p : Byte, (c.window k).holds p = true → (∀ d : Descriptor, d ∈ c.descriptors → d.id ≠ p) →
      (maskOf (c.window k)).getLsbD (31 + (c.window k).off.toNat - p.toNat) = false

/-- 42_pid_bitmask.md R185, 10_state.md R33 (decision D24): a configuration that breaks a clause of R33 other than clause
4 is refused, and so is a mask query over a table with an entry outside its window. -/
def Obligations.IllFormedConfigurationIsRefused : Prop :=
  (∀ s : State, s.cfg.runnable = false → step s = .refused .illFormedConfig) ∧
  ∀ (pid : Byte) (s : State) (env : Env) (rx : Frame) (rest : List Input), s.inbox = .request env rx :: rest →
    (s.cfg.win0.covers = false → exec (.sup0 pid) s = .refused .illFormedConfig) ∧
    (s.cfg.win1.covers = false → exec (.sup1 pid) s = .refused .illFormedConfig) ∧
    (s.cfg.win2.covers = false → exec (.sup2 pid) s = .refused .illFormedConfig)

/-! ## Trouble codes -/

/-- `DTCS` (43_dtc.md R200 to R202): the word `-- 03 --` decodes to it whatever bytes 0 and 2 are; it reads the snapshot
once, the scratch takes its first `DTC_CAP` codes in order, and the answer is format T with the first two codes at most,
count byte and length by the formula 2 + 2 × count (conflict C4, log entry 30). Bytes 0 and 2 are log entry 15, the scratch
log entry 20, the bus log entry 16, the pad bytes log entry 17. -/
def Obligations.StoredCodesRequestAnswersFirstTwoCodes : Prop :=
  (∀ (c : Cfg) (b0 b2 : Byte), decodeWord c (wordOf b0 0x03 b2) = .request .dtcs) ∧
  ∀ (s : State) (env : Env) (rx : Frame) (rest : List Input),
    s.cfg.capOk = true → s.inbox = .request env rx :: rest →
    exec .dtcs s = .next { s.answered [.dtcSnapshot] rx.bus
      (match env.dtc with
        | []          => [0x02, 0x43, 0x00]
        | [a]         => [0x04, 0x43, 0x01, a.extractLsb' 8 8, a.extractLsb' 0 8]
        | a :: b :: _ => [0x06, 0x43, 0x02, a.extractLsb' 8 8, a.extractLsb' 0 8, b.extractLsb' 8 8, b.extractLsb' 0 8])
      with scr := some (match s.cfg.dtcCap with
        | none   => env.dtc
        | some n => env.dtc.take n) }

/-- `DTCP`, `DTCM` (43_dtc.md R203, R204): the answer is constant, nothing is read and `SCR` is as it was, whatever the
fault-code collaborator holds. That bytes 0 and 2 of the request may be anything is log entry 15 (D6), the bus log entry 16
(D7), the pad bytes log entry 17 (D8). -/
def Obligations.PendingAndPermanentAlwaysAnswerNone : Prop :=
  (∀ (c : Cfg) (b0 b2 : Byte), decodeWord c (wordOf b0 0x07 b2) = .request .dtcp ∧
    decodeWord c (wordOf b0 0x0A b2) = .request .dtcm) ∧
  ∀ (s : State) (env : Env) (rx : Frame) (rest : List Input), s.inbox = .request env rx :: rest →
    exec .dtcp s = .next (s.answered [] rx.bus [0x02, 0x47, 0x00]) ∧
    exec .dtcm s = .next (s.answered [] rx.bus [0x02, 0x4A, 0x00])

/-- 43_dtc.md R205: a list of more than two codes is answered exactly as its first two, for every service byte, in one
frame whose count byte is at most 2. -/
def Obligations.LongCodeListIsTruncatedToTwo : Prop :=
  ∀ (bus : BusId) (svc : Byte) (l : List Code) (s : State),
    sendDtc bus svc l s = sendDtc bus svc (l.take 2) s ∧
    ∃ f : Frame, sendDtc bus svc l s = .next { s with out := s.out ++ [f] } ∧ f.data[2].toNat ≤ 2

/-- 43_dtc.md R209 law 4, 10_state.md R22: what an earlier request left in the scratch never reaches a response; two
states that differ in `SCR` alone answer alike, and after a stored-codes request they are equal. -/
def Obligations.OldScratchNeverReachesAResponse : Prop :=
  ∀ (i : Instr) (s t : State) (old : Option (List Code)), exec i s = .next t →
    ∃ u, exec i { s with scr := old } = .next u ∧ u.out = t.out ∧ u.reads = t.reads ∧ u.halt = t.halt ∧
      u.fatal = t.fatal ∧ (i = .dtcs → u = t)

/-- The count and the length byte of every trouble-code response: `TX[0] = 2 + 2 × TX[2]` and `TX[2] ≤ 2` (43_dtc.md
R209 law 1), and the echo is 0x40 + service. -/
def Obligations.CodeResponseCountsItsCodes : Prop :=
  ∀ (bus : BusId) (svc : Byte) (l : List Code) (s : State),
    ∃ f : Frame, sendDtc bus svc l s = .next { s with out := s.out ++ [f] } ∧
      f.data[0].toNat = 2 + 2 * f.data[2].toNat ∧ f.data[2].toNat = min l.length 2 ∧ f.data[1] = 0x40 + svc

/-- 43_dtc.md R206 (decision D19): the status byte with the literal meaning of the source's expression, not the
presumably intended 0x80 + count. -/
def Obligations.StatusByteIsTheLiteralExpression : Prop :=
  ∀ n : Nat, dtcStatus n = if n = 0 then 0x00 else 0x80

/-! ## Byte order, the sink, frames and reads -/

/-- 20_memory.md R51: the bytes of a value are its big-endian bytes; reading them back most significant first gives the
value. -/
def Obligations.PayloadBytesAreBigEndian : Prop :=
  ∀ n v : Nat, v < 2 ^ (8 * n) →
    (bytesBE n v).length = n ∧ (bytesBE n v).foldl (fun acc b => acc * 256 + b.toNat) 0 = v

/-- 44_frame_sink.md R220 to R222, 30_encoding.md R83, R84 (decisions D7, D8): building a response by `open()`, the
indexed byte writes and `commit()` gives the frame whose first bytes are length, echo, third byte and payload, and whose
other bytes are `PAD_BYTE`. -/
def Obligations.ResponseIsWhatItsByteWritesBuild : Prop :=
  ∀ (bus : BusId) (echo third : Byte) (payload : List Byte) (s : State), payload.length ≤ 4 →
    respond bus echo third payload s =
      .next (s.answered [] bus ([BitVec.ofNat 8 (2 + payload.length), echo, third] ++ payload))

/-- The frame of every request (10_state.md R20, R22, R30, 60_exceptions.md R250): the configuration and the inputs are
unchanged, only `DTCS` writes `SCR`, and no frame committed before is touched. -/
def Obligations.RequestLeavesAllElseUnchanged : Prop :=
  ∀ (i : Instr) (s t : State), exec i s = .next t →
    t.cfg = s.cfg ∧ t.inbox = s.inbox ∧ s.out <+: t.out ∧ (i ≠ .dtcs → t.scr = s.scr)

/-- 20_memory.md R56 (decision D17): each request reads each key it names exactly once and reads nothing else. -/
def Obligations.EachRequestReadsItsKeysOnce : Prop :=
  ∀ (i : Instr) (s t : State), exec i s = .next t → t.reads = s.reads ++ readsOf i

/-- 20_memory.md R61: an unavailable sensor cannot be told from one that reads zero, by any step. -/
def Obligations.UnavailableSensorReadsAsZero : Prop :=
  ∀ (k : SensorKey) (s : State) (e f : Env) (rx : Frame) (rest : List Input),
    e.sensor k = none → f.sensor k = some 0 → (∀ j : SensorKey, j ≠ k → e.sensor j = f.sensor j) →
    (∀ j : EngineKey, e.engine j = f.engine j) → e.dtc = f.dtc →
    step { s with inbox := .request e rx :: rest } = step { s with inbox := .request f rx :: rest }
end

