-- ==== Sys2Proof/Laws/Decode.lean ====
section
/-! SUPPORT. The small lemmas of the request word, the registry, well-formed configurations and the decoder. -/

namespace Sys2Proof

variable {P B : Type}

/-- The bits of a request word, byte by byte. -/
theorem getLsbD_wordOf (a b c : Byte) (i : Nat) : (wordOf a b c).getLsbD i =
    if i < 8 then c.getLsbD i else if i < 16 then b.getLsbD (i - 8) else a.getLsbD (i - 16) := by
  have h : (wordOf a b c).getLsbD i = ((a ++ b : BitVec (8 + 8)) ++ c : BitVec (8 + 8 + 8)).getLsbD i := rfl
  rw [h, BitVec.getLsbD_append, BitVec.getLsbD_append, show i - 8 - 8 = i - 16 by omega]
  split_ifs <;> first | rfl | omega

@[simp] theorem lenField_wordOf (a b c : Byte) : lenField (wordOf a b c) = a := by
  apply BitVec.eq_of_getLsbD_eq
  intro i hi
  simp [lenField, getLsbD_wordOf, hi, show ¬ 16 + i < 8 by omega]

@[simp] theorem svcField_wordOf (a b c : Byte) : svcField (wordOf a b c) = b := by
  apply BitVec.eq_of_getLsbD_eq
  intro i hi
  simp [svcField, getLsbD_wordOf, hi, show 8 + i < 16 by omega]

@[simp] theorem pidField_wordOf (a b c : Byte) : pidField (wordOf a b c) = c := by
  ext i hi
  simp [pidField, getLsbD_wordOf, hi]

/-- A request word is its three bytes. -/
theorem wordOf_fields (w : BitVec 24) : wordOf (lenField w) (svcField w) (pidField w) = w := by
  apply BitVec.eq_of_getLsbD_eq
  intro i hi
  rw [getLsbD_wordOf]
  simp only [lenField, svcField, pidField, BitVec.getLsbD_extractLsb']
  split_ifs with h1 h2
  · simp [h1]
  · rw [show 8 + (i - 8) = i by omega]; simp; omega
  · rw [show 16 + (i - 16) = i by omega]; simp; omega

/-- The service column of the opcode map: a word agrees with a trouble-code row exactly in its service byte. -/
theorem and_serviceMask_eq_iff (v w : BitVec 24) : v &&& 0x00FF00 = w &&& 0x00FF00 ↔ svcField v = svcField w := by
  have mask : ∀ i : Nat, i < 24 → (0x00FF00 : BitVec 24).getLsbD i = decide (8 ≤ i ∧ i < 16) := by decide
  constructor
  · intro h
    apply BitVec.eq_of_getLsbD_eq
    intro i hi
    have := congrArg (fun x : BitVec 24 => x.getLsbD (8 + i)) h
    simp only [BitVec.getLsbD_and, mask (8 + i) (by omega)] at this
    simpa [svcField, hi, show 8 + i < 16 by omega] using this
  · intro h
    apply BitVec.eq_of_getLsbD_eq
    intro i hi
    simp only [BitVec.getLsbD_and, mask i hi]
    by_cases hb : 8 ≤ i ∧ i < 16
    · have := congrArg (fun x : Byte => x.getLsbD (i - 8)) h
      simp only [svcField, BitVec.getLsbD_extractLsb', show i - 8 < 8 by omega, decide_true, Bool.true_and,
        show 8 + (i - 8) = i by omega] at this
      rw [this]
    · simp [hb]

/-- The clauses of R33 a configuration the model runs meets. -/
theorem runnable_iff (c : Cfg P) : c.runnable = true ↔
    c.windowsOk = true ∧ c.tabsShort = true ∧ c.tabsCovered = true ∧ c.pidsOk = true ∧ c.capOk = true := by
  simp [Cfg.runnable, and_assoc]

theorem wf_runnable {c : Cfg P} (h : c.wf = true) : c.runnable = true := by
  simp only [Cfg.wf, Bool.and_eq_true] at h; exact h.1

theorem runnable_covers {c : Cfg P} (h : c.runnable = true) (k : WindowIndex) : (c.window k).covers = true := by
  have := ((runnable_iff c).mp h).2.2.1
  simp only [Cfg.tabsCovered, Bool.and_eq_true] at this
  cases k
  exacts [this.1.1, this.1.2, this.2]

/-- Clause 3 for one descriptor. -/
theorem covers_mem {w : Window P} (h : w.covers = true) {d : Descriptor P} (hd : d ∈ w.tab) :
    w.off.toNat ≤ d.id.toNat ∧ d.id.toNat ≤ w.off.toNat + 31 := by
  simpa [Window.holds] using List.all_eq_true.mp h d hd

theorem hasHandler_iff (k : Kind P) : k.hasHandler = true ↔ k ≠ .bare := by
  cases k <;> simp [Kind.hasHandler]

/-- A handler comes from a descriptor of the registry. -/
theorem handler_mem {c : Cfg P} {pid : Byte} {k : Kind P} (h : c.handler pid = some k) :
    (⟨pid, k⟩ : Descriptor P) ∈ c.handlers := by
  simp only [Cfg.handler, Option.map_eq_some_iff] at h
  obtain ⟨d, hd, rfl⟩ := h
  have hid : d.id = pid := by simpa using List.find?_some hd
  subst hid
  exact List.mem_of_find?_eq_some hd

/-- A PID without a handler is the identifier of no descriptor with one. -/
theorem handler_none_iff (c : Cfg P) (pid : Byte) :
    c.handler pid = none ↔ ∀ d ∈ c.descriptors, d.kind ≠ .bare → d.id ≠ pid := by
  simp [Cfg.handler, Cfg.handlers, hasHandler_iff]

/-- Clause 5: a PID with a handler is no query PID. -/
theorem handler_ne_qpid {c : Cfg P} (h : c.pidsOk = true) {pid : Byte} {k : Kind P} (hk : c.handler pid = some k)
    (x : WindowIndex) : pid ≠ (c.window x).qpid := by
  have hm : pid ∈ c.handlers.map (·.id) := List.mem_map.mpr ⟨_, handler_mem hk, rfl⟩
  simp only [Cfg.pidsOk, decide_eq_true_eq, List.nodup_cons, List.mem_cons, not_or] at h
  rintro rfl
  cases x
  exacts [h.1.2.2 hm, h.2.1.2 hm, h.2.2.1 hm]

/-- Clause 5: the three query PIDs are pairwise distinct. -/
theorem qpids_distinct {c : Cfg P} (h : c.pidsOk = true) :
    c.win0.qpid ≠ c.win1.qpid ∧ c.win0.qpid ≠ c.win2.qpid ∧ c.win1.qpid ≠ c.win2.qpid := by
  simp only [Cfg.pidsOk, decide_eq_true_eq, List.nodup_cons, List.mem_cons, not_or] at h
  exact ⟨h.1.1, h.1.2.1, h.2.1.1⟩

/-- A listed PID has the value handler of its parameter. -/
theorem lists_iff (c : Cfg P) (pid : Byte) (p : Param) :
    c.lists pid p = true ↔ ∃ w : Nat, c.handler pid = some (.value w (.named p)) := by
  unfold Cfg.lists
  cases h : c.handler pid with
  | none => simp
  | some k => rcases k with ⟨w, q | e⟩ | _ | _ <;> simp [Kind.isParam]

/-- A PID listed as lambda has the lambda marker. -/
theorem listsLambda_iff (c : Cfg P) (pid : Byte) : c.listsLambda pid = true ↔ c.handler pid = some .lambda := by
  unfold Cfg.listsLambda
  cases h : c.handler pid with
  | none => simp
  | some k => cases k <;> simp [Kind.isLambda]

/-- The PID select on a PID that has a handler. -/
theorem decodePid_handler {c : Cfg P} (h : c.pidsOk = true) {pid : Byte} {k : Kind P} (hk : c.handler pid = some k) :
    decodePid c pid = liveRequest pid k := by
  have h0 := handler_ne_qpid h hk .w0
  have h1 := handler_ne_qpid h hk .w1
  have h2 := handler_ne_qpid h hk .w2
  simp only [Cfg.window] at h0 h1 h2
  rw [decodePid, if_neg h0, if_neg h1, if_neg h2, hk]

/-- The current-data path of the decoder. -/
@[simp] theorem decodeWord_currentData (c : Cfg P) (pid : Byte) : decodeWord c (wordOf 0x02 0x01 pid) = decodePid c pid := by
  rw [decodeWord, svcField_wordOf, lenField_wordOf, pidField_wordOf, if_pos rfl, if_pos rfl]

/-- The request word of a frame that carries a word. -/
theorem word_wordData (bus : B) (id : CanId) (dlc : Fin 9) (w : BitVec 24) :
    (⟨bus, id, dlc, wordData w⟩ : Frame B).word = w := by
  exact wordOf_fields w

end Sys2Proof
end

