-- ==== Sys2Proof/Laws/Operands.lean ====
section
/-! SUPPORT. The small lemmas of clamping, rounding and byte order. -/

namespace Sys2Proof.Machine

/-- A clamped value lies within its bounds. -/
theorem clamp_mem {α : Type} [LinearOrder α] {lo hi : α} (h : lo ≤ hi) (x : α) :
    lo ≤ clamp lo hi x ∧ clamp lo hi x ≤ hi := by
  unfold clamp
  split_ifs with h1 h2
  · exact ⟨le_rfl, h⟩
  · exact ⟨h, le_rfl⟩
  · exact ⟨not_lt.mp h1, not_lt.mp h2⟩

/-- Clamping is monotone. -/
theorem clamp_mono {α : Type} [LinearOrder α] {lo hi : α} (h : lo ≤ hi) {x y : α} (hxy : x ≤ y) :
    clamp lo hi x ≤ clamp lo hi y := by
  unfold clamp
  split_ifs <;> first | exact le_rfl | exact h | order

/-- A value within the bounds is not changed. -/
theorem clamp_of_mem {α : Type} [LinearOrder α] {lo hi x : α} (h1 : lo ≤ x) (h2 : x ≤ hi) : clamp lo hi x = x := by
  simp [clamp, not_lt.mpr h1, not_lt.mpr h2]

section OrderedField

variable {K : Type} [Field K] [LinearOrder K] [FloorRing K]

/-- Whichever neighbour a tie goes to, `nearest` is the floor below the half and the next integer above it. -/
theorem nearest_cases (up : Bool) (q : K) :
    (q - ⌊q⌋ < 1 / 2 ∧ nearest up q = ⌊q⌋) ∨ (q - ⌊q⌋ > 1 / 2 ∧ nearest up q = ⌊q⌋ + 1) ∨
    (q - ⌊q⌋ = 1 / 2 ∧ nearest up q = if up then ⌊q⌋ + 1 else ⌊q⌋) := by
  unfold nearest
  rcases lt_trichotomy (q - ⌊q⌋) (1 / 2) with h | h | h
  · exact .inl ⟨h, if_pos h⟩
  · exact .inr (.inr ⟨h, by simp [h]⟩)
  · exact .inr (.inl ⟨h, by rw [if_neg (not_lt.mpr h.le), if_pos h]⟩)

/-- Every function to a nearest integer is `nearest` with some tie rule: the three nearest rules of `TieRule`, with
`Config.freeTieUp` free, shut none out (00_scope.md R8). -/
theorem exists_nearest_of_near [IsStrictOrderedRing K] (q : K) (n : Int) (h : |(n : K) - q| ≤ 1 / 2) : ∃ up, nearest up q = n := by
  have h1 := Int.floor_le q
  have h2 := Int.lt_floor_add_one q
  obtain ⟨ha, hb⟩ := abs_le.mp h
  have hn : n = ⌊q⌋ ∨ n = ⌊q⌋ + 1 := by
    have h3 : (⌊q⌋ : K) < ((n + 1 : Int) : K) := by push_cast; linarith
    have h4 : ((n : Int) : K) < ((⌊q⌋ + 2 : Int) : K) := by push_cast; linarith
    have h3 := Int.cast_lt.mp h3
    have h4 := Int.cast_lt.mp h4
    omega
  obtain ⟨hq, e⟩ | ⟨hq, e⟩ | ⟨hq, e⟩ := nearest_cases true q
  · refine ⟨true, e.trans ?_⟩
    rcases hn with rfl | rfl
    · rfl
    · push_cast at hb; linarith
  · refine ⟨true, e.trans ?_⟩
    rcases hn with rfl | rfl
    · linarith
    · rfl
  · rcases hn with rfl | rfl
    · exact ⟨false, by rw [nearest, if_neg hq.not_lt, if_neg hq.le.not_gt]; rfl⟩
    · exact ⟨true, e⟩

end OrderedField

/-- Byte `i` of `n` big-endian bytes. -/
theorem bytesBE_length (n v : Nat) : (bytesBE n v).length = n := by simp [bytesBE]

theorem bytesBE_one (v : Nat) : bytesBE 1 v = [BitVec.ofNat 8 v] := rfl

theorem bytesBE_two (v : Nat) : bytesBE 2 v = [BitVec.ofNat 8 (v / 256), BitVec.ofNat 8 v] := by
  simp [bytesBE, byteBE, List.range_succ, Nat.shiftRight_eq_div_pow]

end Sys2Proof.Machine
end

