-- ==== Sys2Proof/Laws/State.lean ====
section
/-! SUPPORT. One lemma per field per state update, so that no later proof unfolds a record update. -/

namespace Sys2Proof.Machine

variable {P B C : Type} (s : State P B) (r : Read) (f : Frame B) (env : Env P) (rs : List Read) (bus : B) (bs : List Byte)
  (g : B → C)

@[simp] theorem logRead_cfg : (logRead r s).cfg = s.cfg := rfl
@[simp] theorem logRead_halt : (logRead r s).halt = s.halt := rfl
@[simp] theorem logRead_fatal : (logRead r s).fatal = s.fatal := rfl
@[simp] theorem logRead_scr : (logRead r s).scr = s.scr := rfl
@[simp] theorem logRead_out : (logRead r s).out = s.out := rfl
@[simp] theorem logRead_reads : (logRead r s).reads = s.reads ++ [r] := rfl
@[simp] theorem logRead_inbox : (logRead r s).inbox = s.inbox := rfl

@[simp] theorem commit_cfg : (commit f s).cfg = s.cfg := rfl
@[simp] theorem commit_halt : (commit f s).halt = s.halt := rfl
@[simp] theorem commit_fatal : (commit f s).fatal = s.fatal := rfl
@[simp] theorem commit_scr : (commit f s).scr = s.scr := rfl
@[simp] theorem commit_out : (commit f s).out = s.out ++ [f] := rfl
@[simp] theorem commit_reads : (commit f s).reads = s.reads := rfl
@[simp] theorem commit_inbox : (commit f s).inbox = s.inbox := rfl

@[simp] theorem refresh_cfg : (refresh env s).cfg = s.cfg := rfl
@[simp] theorem refresh_halt : (refresh env s).halt = s.halt := rfl
@[simp] theorem refresh_fatal : (refresh env s).fatal = s.fatal := rfl
@[simp] theorem refresh_scr : (refresh env s).scr = some (capped s.cfg env.dtc) := rfl
@[simp] theorem refresh_out : (refresh env s).out = s.out := rfl
@[simp] theorem refresh_reads : (refresh env s).reads = s.reads ++ [.dtcSnapshot] := rfl
@[simp] theorem refresh_inbox : (refresh env s).inbox = s.inbox := rfl

@[simp] theorem retire_cfg : (retire s).cfg = s.cfg := rfl
@[simp] theorem retire_halt : (retire s).halt = s.halt := rfl
@[simp] theorem retire_fatal : (retire s).fatal = s.fatal := rfl
@[simp] theorem retire_scr : (retire s).scr = s.scr := rfl
@[simp] theorem retire_out : (retire s).out = s.out := rfl
@[simp] theorem retire_reads : (retire s).reads = s.reads := rfl
@[simp] theorem retire_inbox : (retire s).inbox = s.inbox.tail := rfl

@[simp] theorem resetBlock_cfg : (resetBlock s).cfg = s.cfg := rfl
@[simp] theorem resetBlock_halt : (resetBlock s).halt = false := rfl
@[simp] theorem resetBlock_fatal : (resetBlock s).fatal = none := rfl
@[simp] theorem resetBlock_scr : (resetBlock s).scr = none := rfl
@[simp] theorem resetBlock_out : (resetBlock s).out = [] := rfl
@[simp] theorem resetBlock_reads : (resetBlock s).reads = [] := rfl
@[simp] theorem resetBlock_inbox : (resetBlock s).inbox = s.inbox := rfl

@[simp] theorem answered_cfg : (s.answered rs bus bs).cfg = s.cfg := rfl
@[simp] theorem answered_halt : (s.answered rs bus bs).halt = s.halt := rfl
@[simp] theorem answered_fatal : (s.answered rs bus bs).fatal = s.fatal := rfl
@[simp] theorem answered_scr : (s.answered rs bus bs).scr = s.scr := rfl
@[simp] theorem answered_out : (s.answered rs bus bs).out = s.out ++ [replyFrame s.cfg bus bs] := rfl
@[simp] theorem answered_reads : (s.answered rs bus bs).reads = s.reads ++ rs := rfl
@[simp] theorem answered_inbox : (s.answered rs bus bs).inbox = s.inbox := rfl

@[simp] theorem renameBuses_cfg : (s.renameBuses g).cfg = s.cfg := rfl
@[simp] theorem renameBuses_halt : (s.renameBuses g).halt = s.halt := rfl
@[simp] theorem renameBuses_fatal : (s.renameBuses g).fatal = s.fatal := rfl
@[simp] theorem renameBuses_scr : (s.renameBuses g).scr = s.scr := rfl
@[simp] theorem renameBuses_out : (s.renameBuses g).out = s.out.map (renameFrame g) := rfl
@[simp] theorem renameBuses_reads : (s.renameBuses g).reads = s.reads := rfl
@[simp] theorem renameBuses_inbox : (s.renameBuses g).inbox = s.inbox.map (renameInput g) := rfl

end Sys2Proof.Machine
end

