-- ==== Sys2Proof/Laws/Ops.lean ====
section
/-! SUPPORT. What each shared operation, each request and the step can do, said once. -/

namespace Sys2Proof.Machine

variable {P B : Type}

/-- A request in hand: the meaning runs on it. -/
theorem withRequest_request {s : State P B} {env : Env P} {rx : Frame B} {rest : List (Input P B)}
    (h : s.inbox = .request env rx :: rest) (k : Env P → Frame B → Result P B) : withRequest s k = k env rx := by
  simp [withRequest, h]

/-- A meaning that answers a next state had a request in hand. -/
theorem withRequest_next {s t : State P B} {k : Env P → Frame B → Result P B} (h : withRequest s k = .next t) :
    ∃ env rx rest, s.inbox = .request env rx :: rest ∧ k env rx = .next t := by
  unfold withRequest at h
  split at h
  · exact ⟨_, _, _, ‹_›, h⟩
  · cases h
  · cases h

@[simp] theorem onNext_next (g : State P B → State P B) (s : State P B) : onNext g (.next s) = .next (g s) := rfl

theorem onNext_eq_next {g : State P B → State P B} {r : Result P B} {t : State P B} (h : onNext g r = .next t) :
    ∃ s, r = .next s ∧ t = g s := by
  cases r with
  | next s => exact ⟨s, rfl, by cases h; rfl⟩
  | fault _ => cases h
  | refused _ => cases h

/-- A list of reads is logged in order, and nothing else happens. -/
theorem logReads_eq (rs : List Read) (s : State P B) : logReads rs s = { s with reads := s.reads ++ rs } := by
  induction rs generalizing s with
  | nil => simp [logReads]
  | cons k ks ih =>
    rw [logReads, List.foldl_cons, ← logReads, ih]
    simp [logRead]

theorem mem_readOnce (k : Read) (ks : List Read) : k ∈ readOnce ks ↔ k ∈ ks := by
  induction ks with
  | nil => simp [readOnce]
  | cons j ks ih =>
    unfold readOnce
    split
    · rw [ih, List.mem_cons]
      constructor
      · exact .inr
      · rintro (rfl | h) <;> assumption
    · simp [ih]

/-- Each read of a rule is made once. -/
theorem readOnce_nodup (ks : List Read) : (readOnce ks).Nodup := by
  induction ks with
  | nil => simp [readOnce]
  | cons j ks ih =>
    unfold readOnce
    split
    · exact ih
    · exact List.nodup_cons.mpr ⟨by rwa [mem_readOnce], ih⟩

/-- Writing a byte leaves the envelope of a frame. -/
theorem writeBytes_envelope (f : Frame B) (ws : List (Fin 8 × Byte)) :
    (writeBytes f ws).bus = f.bus ∧ (writeBytes f ws).id = f.id ∧ (writeBytes f ws).dlc = f.dlc := by
  induction ws generalizing f with
  | nil => exact ⟨rfl, rfl, rfl⟩
  | cons w ws ih => exact ih (writeByte f w.1 w.2)

/-- A byte just written reads back, and every other byte is as it was. -/
theorem writeByte_data (f : Frame B) (i j : Fin 8) (v : Byte) :
    (writeByte f i v).data[j] = if i = j then v else f.data[j] := by
  simp [writeByte, Vector.getElem_set, Fin.ext_iff]

/-- A byte no write names is as it was. -/
theorem writeBytes_untouched (f : Frame B) (ws : List (Fin 8 × Byte)) (j : Fin 8) (h : ∀ w ∈ ws, w.1 ≠ j) :
    (writeBytes f ws).data[j] = f.data[j] := by
  induction ws generalizing f with
  | nil => rfl
  | cons w ws ih =>
    have h0 := ih (writeByte f w.1 w.2) (fun x hx => h x (List.mem_cons_of_mem _ hx))
    rw [writeByte_data, if_neg (h w List.mem_cons_self)] at h0
    exact h0

/-- What a response does: one frame joins `OUT`, nothing else changes. -/
theorem respond_next {bus : B} {echo third : Byte} {payload : List Byte} {s t : State P B}
    (h : respond bus echo third payload s = .next t) :
    t = { s with out := s.out ++ [writeBytes (openFrame s.cfg bus) (responseWrites echo third payload)] } := by
  cases h; rfl

/-- The width of a listed value descriptor. -/
theorem descriptorWidth_value {c : Cfg P} {pid : Byte} {w : Nat} {r : Scaling P} (h : c.handler pid = some (.value w r))
    (d : Nat) : descriptorWidth c pid d = w := by
  simp [descriptorWidth, h]

/-- A stored-codes request in hand refreshes the scratch and sends it (43_dtc.md R202). -/
theorem execDtcs_request {s : State P B} {env : Env P} {rx : Frame B} {rest : List (Input P B)}
    (h : s.inbox = .request env rx :: rest) :
    execDtcs s = sendDtc rx.bus 0x03 (capped s.cfg env.dtc) (refresh env s) := by
  rw [execDtcs, withRequest_request h]; rfl

section OrderedField

variable [Field P] [LinearOrder P] [FloorRing P]

/-- What `sendValue` does, at a supported width and at any other (41_value_encoder.md R142). -/
theorem sendValue_cases (bus : B) (pid : Byte) (w : Nat) (q : P) (s : State P B) :
    ((w = 1 ∨ w = 2) ∧
      sendValue bus pid w q s = respond bus 0x41 pid (bytesBE w (encodeValue s.cfg.ties w q)) s) ∨
    ((w ≠ 1 ∧ w ≠ 2) ∧
      sendValue bus pid w q s = .next { s with halt := true, fatal := some ⟨.fWidth, pid, w⟩ }) := by
  by_cases h : w = 1 ∨ w = 2
  · exact .inl ⟨h, if_pos h⟩
  · exact .inr ⟨not_or.mp h, if_neg h⟩

/-- A live-data request in hand is one read and a `sendValue` (41_value_encoder.md R142). -/
theorem liveValue_request {s : State P B} {env : Env P} {rx : Frame B} {rest : List (Input P B)}
    (h : s.inbox = .request env rx :: rest) (pid : Byte) (w : Nat) (k : Key) (scale : P → P) :
    liveValue pid w k scale s =
      sendValue rx.bus pid (descriptorWidth s.cfg pid w) (scale (env.value k)) (logRead (.value k) s) := by
  rw [liveValue, withRequest_request h]; rfl

/-- `exec` is the default instance of the meanings at any types (00_scope.md R6). -/
theorem exec_eq_execAt (i : Instr) (s : State) : exec i s = execAt i s := by cases i <;> rfl

/-- `step` is the default instance of the step at any types. -/
theorem step_eq_stepAt (s : State) : step s = stepAt s := by
  rw [step, stepAt, show exec = execAt from funext fun i => funext (exec_eq_execAt i)]

/-- A step on each kind of input, in a configuration the model runs (40_dispatch.md R110, R119), at any types: `stepAt`
with `ex := execAt`, `step` with `ex := exec`. -/
theorem invoke_cases [Inhabited P] (ex : Instr → State P B → Result P B) {s : State P B} (hc : s.cfg.runnable = true) :
    (s.inbox = [] ∧ invoke ex s = .next s) ∨
    (∃ rest, s.inbox = .reset :: rest ∧ invoke ex s = .next (retire (resetBlock s))) ∨
    (∃ env rx rest, s.inbox = .request env rx :: rest ∧ s.halt = true ∧ invoke ex s = .next (retire s)) ∨
    (∃ env rx rest, s.inbox = .request env rx :: rest ∧ s.halt = false ∧
      invoke ex s = onNext retire (runDecoded ex (decodeFrame s.cfg rx) s)) := by
  rcases h : s.inbox with _ | ⟨_ | _, rest⟩
  · exact .inl ⟨rfl, by simp [invoke, hc, h]⟩
  · rename_i env rx
    cases hh : s.halt with
    | true => exact .inr (.inr (.inl ⟨env, rx, rest, rfl, rfl, by simp [invoke, hc, h, handle, hh]⟩))
    | false => exact .inr (.inr (.inr ⟨env, rx, rest, rfl, rfl, by simp [invoke, hc, h, handle, hh]⟩))
  · exact .inr (.inl ⟨rest, rfl, by simp [invoke, hc, h]⟩)

/-- A step that answers a next state ran a configuration the model runs. -/
theorem invoke_next_runnable [Inhabited P] {ex : Instr → State P B → Result P B} {s t : State P B}
    (h : invoke ex s = .next t) : s.cfg.runnable = true := by
  by_contra hc
  simp [invoke, hc] at h

/-- `invoke_cases` of the step at any types. -/
theorem stepAt_cases [Inhabited P] {s : State P B} (hc : s.cfg.runnable = true) :
    (s.inbox = [] ∧ stepAt s = .next s) ∨
    (∃ rest, s.inbox = .reset :: rest ∧ stepAt s = .next (retire (resetBlock s))) ∨
    (∃ env rx rest, s.inbox = .request env rx :: rest ∧ s.halt = true ∧ stepAt s = .next (retire s)) ∨
    (∃ env rx rest, s.inbox = .request env rx :: rest ∧ s.halt = false ∧
      stepAt s = onNext retire (runDecoded execAt (decodeFrame s.cfg rx) s)) :=
  invoke_cases execAt hc

/-- `invoke_next_runnable` of the step at any types. -/
theorem stepAt_next_runnable [Inhabited P] {s t : State P B} (h : stepAt s = .next t) : s.cfg.runnable = true :=
  invoke_next_runnable h

/-- `invoke_cases` of the step. -/
theorem step_cases {s : State} (hc : s.cfg.runnable = true) :
    (s.inbox = [] ∧ step s = .next s) ∨
    (∃ rest, s.inbox = .reset :: rest ∧ step s = .next (retire (resetBlock s))) ∨
    (∃ env rx rest, s.inbox = .request env rx :: rest ∧ s.halt = true ∧ step s = .next (retire s)) ∨
    (∃ env rx rest, s.inbox = .request env rx :: rest ∧ s.halt = false ∧
      step s = onNext retire (runDecoded exec (decodeFrame s.cfg rx) s)) :=
  invoke_cases exec hc

/-- `invoke_next_runnable` of the step. -/
theorem step_next_runnable {s t : State} (h : step s = .next t) : s.cfg.runnable = true := invoke_next_runnable h

/-- The width a named parameter's rule gives (10_state.md R26). -/
def ruleWidth : Param → Nat
  | .rpm | .vbat => 2
  | _            => 1

/-- The key a named parameter's rule reads. -/
def ruleKey : Param → Key
  | .load  => .sensor .load
  | .ect   => .sensor .clt
  | .stft1 => .engine .stft1
  | .stft2 => .engine .stft2
  | .map   => .sensor .map
  | .rpm   => .sensor .rpm
  | .vss   => .sensor .vehicleSpeed
  | .tadv  => .engine .timingAdvance
  | .iat   => .sensor .iat
  | .tps   => .sensor .tps
  | .vbat  => .sensor .batteryVoltage
  | .eth   => .sensor .ethanol
  | .oilt  => .sensor .oilTemp

/-- The thirteen generic live-data meanings have one shape. -/
theorem execAt_paramInstr (p : Param) (pid : Byte) (s : State P B) :
    execAt (paramInstr p pid) s = liveValue pid (ruleWidth p) (ruleKey p) (scaleOf p) s := by
  cases p <;> rfl

theorem exec_paramInstr (p : Param) (pid : Byte) (s : State) :
    exec (paramInstr p pid) s = liveValue pid (ruleWidth p) (ruleKey p) (scaleOf p) s := by
  cases p <;> rfl

/-- A request is a generic live-data request, or one of the seven others. -/
theorem instr_cases (i : Instr) :
    (∃ p pid, i = paramInstr p pid) ∨ (∃ k pid, i = supInstr k pid) ∨ (∃ pid, i = .lambda pid) ∨
    i = .dtcs ∨ i = .dtcp ∨ i = .dtcm := by
  cases i with
  | sup0 pid => exact .inr (.inl ⟨.w0, pid, rfl⟩)
  | sup1 pid => exact .inr (.inl ⟨.w1, pid, rfl⟩)
  | sup2 pid => exact .inr (.inl ⟨.w2, pid, rfl⟩)
  | load pid => exact .inl ⟨.load, pid, rfl⟩
  | ect pid => exact .inl ⟨.ect, pid, rfl⟩
  | stft1 pid => exact .inl ⟨.stft1, pid, rfl⟩
  | stft2 pid => exact .inl ⟨.stft2, pid, rfl⟩
  | map pid => exact .inl ⟨.map, pid, rfl⟩
  | rpm pid => exact .inl ⟨.rpm, pid, rfl⟩
  | vss pid => exact .inl ⟨.vss, pid, rfl⟩
  | tadv pid => exact .inl ⟨.tadv, pid, rfl⟩
  | iat pid => exact .inl ⟨.iat, pid, rfl⟩
  | tps pid => exact .inl ⟨.tps, pid, rfl⟩
  | vbat pid => exact .inl ⟨.vbat, pid, rfl⟩
  | eth pid => exact .inl ⟨.eth, pid, rfl⟩
  | oilt pid => exact .inl ⟨.oilt, pid, rfl⟩
  | lambda pid => exact .inr (.inr (.inl ⟨pid, rfl⟩))
  | dtcs => exact .inr (.inr (.inr (.inl rfl)))
  | dtcp => exact .inr (.inr (.inr (.inr (.inl rfl))))
  | dtcm => exact .inr (.inr (.inr (.inr (.inr rfl))))

theorem execAt_supInstr (k : WindowIndex) (pid : Byte) (s : State P B) :
    execAt (supInstr k pid) s = sendMask k pid s := by
  cases k <;> rfl

theorem exec_supInstr (k : WindowIndex) (pid : Byte) (s : State) : exec (supInstr k pid) s = sendMask k pid s := by
  cases k <;> rfl

/-- What a request can do, once for all twenty: it had a request in hand, and it either committed one response, after
touching nothing but the read log and the scratch, or it is a generic live-data request that raised the fatal
assertion. -/
theorem execAt_effect {i : Instr} {s t : State P B} (h : execAt i s = .next t) :
    ∃ env rx rest, s.inbox = .request env rx :: rest ∧
      ((∃ rs scr echo third payload, respond rx.bus echo third payload { s with reads := rs, scr := scr } = .next t) ∨
       (∃ p pid w rs, i = paramInstr p pid ∧ w ≠ 1 ∧ w ≠ 2 ∧
          t = { s with reads := rs, halt := true, fatal := some ⟨.fWidth, pid, w⟩ })) := by
  obtain ⟨p, pid, rfl⟩ | ⟨k, pid, rfl⟩ | ⟨pid, rfl⟩ | rfl | rfl | rfl := instr_cases i
  · rw [execAt_paramInstr] at h
    obtain ⟨env, rx, rest, hin, -⟩ := withRequest_next h
    rw [liveValue_request hin] at h
    refine ⟨env, rx, rest, hin, ?_⟩
    obtain ⟨-, he⟩ | ⟨⟨h1, h2⟩, he⟩ := sendValue_cases rx.bus pid (descriptorWidth s.cfg pid (ruleWidth p))
      (scaleOf p (env.value (ruleKey p))) (logRead (.value (ruleKey p)) s)
    · exact .inl ⟨_, s.scr, _, _, _, he ▸ h⟩
    · rw [he] at h
      cases h
      exact .inr ⟨p, pid, _, _, rfl, h1, h2, rfl⟩
  · rw [execAt_supInstr] at h
    obtain ⟨env, rx, rest, hin, hk⟩ := withRequest_next h
    refine ⟨env, rx, rest, hin, .inl ⟨s.reads, s.scr, 0x41, pid, ?_⟩⟩
    split at hk
    · exact ⟨_, hk⟩
    · cases hk
  · obtain ⟨env, rx, rest, hin, hk⟩ := withRequest_next h
    exact ⟨env, rx, rest, hin, .inl ⟨_, s.scr, _, _, _, hk⟩⟩
  · obtain ⟨env, rx, rest, hin, -⟩ := withRequest_next h
    have h' : execDtcs s = .next t := h
    rw [execDtcs_request hin] at h'
    exact ⟨env, rx, rest, hin, .inl ⟨(refresh env s).reads, (refresh env s).scr, _, _, _, h'⟩⟩
  · obtain ⟨env, rx, rest, hin, hk⟩ := withRequest_next (k := fun _ rx => sendDtc rx.bus 0x07 [] s) h
    exact ⟨env, rx, rest, hin, .inl ⟨s.reads, s.scr, 0x40 + 0x07, 0, [], hk⟩⟩
  · obtain ⟨env, rx, rest, hin, hk⟩ := withRequest_next (k := fun _ rx => sendDtc rx.bus 0x0A [] s) h
    exact ⟨env, rx, rest, hin, .inl ⟨s.reads, s.scr, 0x40 + 0x0A, 0, [], hk⟩⟩

/-- `execAt_effect` of `exec`. -/
theorem exec_effect {i : Instr} {s t : State} (h : exec i s = .next t) :
    ∃ env rx rest, s.inbox = .request env rx :: rest ∧
      ((∃ rs scr echo third payload, respond rx.bus echo third payload { s with reads := rs, scr := scr } = .next t) ∨
       (∃ p pid w rs, i = paramInstr p pid ∧ w ≠ 1 ∧ w ≠ 2 ∧
          t = { s with reads := rs, halt := true, fatal := some ⟨.fWidth, pid, w⟩ })) :=
  execAt_effect (exec_eq_execAt i s ▸ h)

end OrderedField

/-- One step of a run. -/
theorem run_of_next {k : Nat} {s u : State} (h : step s = .next u) :
    Sys2Proof.core.run (k + 1) s = Sys2Proof.core.run k u := by
  have h' : Sys2Proof.core.step s = .next u := h
  simp only [Host.Core.run]
  rw [h']

/-- A run that answers a next state took a step that did. -/
theorem run_succ_next {k : Nat} {s t : State} (h : Sys2Proof.core.run (k + 1) s = .next t) :
    ∃ u, step s = .next u ∧ Sys2Proof.core.run k u = .next t := by
  cases hs : step s with
  | next u => rw [run_of_next hs] at h; exact ⟨u, rfl, h⟩
  | fault r =>
    have h' : Sys2Proof.core.step s = .fault r := hs
    simp only [Host.Core.run] at h
    rw [h'] at h
    cases h
  | refused r =>
    have h' : Sys2Proof.core.step s = .refused r := hs
    simp only [Host.Core.run] at h
    rw [h'] at h
    cases h

/-- Two bytes for each code. -/
theorem codeBytes_length (l : List Code) : (codeBytes l).length = 2 * l.length := by
  induction l with
  | nil => rfl
  | cons a l ih => simp [codeBytes] at *; omega

/-- The one bit of a PID that lies in the window. -/
theorem getLsbD_pidBit {off p : Byte} (h : off.toNat ≤ p.toNat ∧ p.toNat ≤ off.toNat + 31) (b : Nat) (hb : b ≤ 31) :
    (pidBit off p).getLsbD b = true ↔ p.toNat = off.toNat + 31 - b := by
  simp [pidBit, BitVec.getLsbD_shiftLeft, BitVec.getLsbD_one]
  omega

end Sys2Proof.Machine
end

