-- ==== Sys2Proof/Laws/PerInstr.lean ====
section
/-! SUPPORT. Facts stated of every instruction as syntax, one lemma per constructor. -/

namespace Sys2Proof.Laws.EncodedBytes

/-- The bytes an encoded request starts with (30_encoding.md R81, R89): a current-data request has declared length 2 and
service 0x01; a trouble-code request has one of the three other services. -/
def Statement (i : Instr) : Prop :=
  (lenField (encode i) = 0x02 ∧ svcField (encode i) = 0x01 ∧ rowMatch i = encode i) ∨
  (svcField (encode i) = 0x03 ∨ svcField (encode i) = 0x07 ∨ svcField (encode i) = 0x0A)

/-- The shape of a current-data row. -/
theorem currentData {i : Instr} {pid : Byte} (h : encode i = wordOf 0x02 0x01 pid) (hm : rowMask i = 0xFFFFFF) :
    Statement i := by
  refine .inl ⟨by rw [h]; exact lenField_wordOf _ _ _, by rw [h]; exact svcField_wordOf _ _ _, ?_⟩
  rw [rowMatch, hm]
  exact BitVec.and_allOnes

theorem sup0 (pid : Byte) : Statement (.sup0 pid) := currentData rfl rfl
theorem sup1 (pid : Byte) : Statement (.sup1 pid) := currentData rfl rfl
theorem sup2 (pid : Byte) : Statement (.sup2 pid) := currentData rfl rfl
theorem load (pid : Byte) : Statement (.load pid) := currentData rfl rfl
theorem ect (pid : Byte) : Statement (.ect pid) := currentData rfl rfl
theorem stft1 (pid : Byte) : Statement (.stft1 pid) := currentData rfl rfl
theorem stft2 (pid : Byte) : Statement (.stft2 pid) := currentData rfl rfl
theorem map (pid : Byte) : Statement (.map pid) := currentData rfl rfl
theorem rpm (pid : Byte) : Statement (.rpm pid) := currentData rfl rfl
theorem vss (pid : Byte) : Statement (.vss pid) := currentData rfl rfl
theorem tadv (pid : Byte) : Statement (.tadv pid) := currentData rfl rfl
theorem iat (pid : Byte) : Statement (.iat pid) := currentData rfl rfl
theorem tps (pid : Byte) : Statement (.tps pid) := currentData rfl rfl
theorem lambda (pid : Byte) : Statement (.lambda pid) := currentData rfl rfl
theorem vbat (pid : Byte) : Statement (.vbat pid) := currentData rfl rfl
theorem eth (pid : Byte) : Statement (.eth pid) := currentData rfl rfl
theorem oilt (pid : Byte) : Statement (.oilt pid) := currentData rfl rfl
theorem dtcs : Statement .dtcs := .inr (.inl (svcField_wordOf _ _ _))
theorem dtcp : Statement .dtcp := .inr (.inr (.inl (svcField_wordOf _ _ _)))
theorem dtcm : Statement .dtcm := .inr (.inr (.inr (svcField_wordOf _ _ _)))

end Sys2Proof.Laws.EncodedBytes
end

