-- ==== Sys2Proof/Tests/Slice0.lean ====
section
/-! SUPPORT. Tests of the model. Expected values are the spec's own: the vectors of 95_test_vectors.md (named by their
ids) and the words of the opcode map (30_encoding.md R89). The last part gives a witness for the hypotheses of every
statement that has some. -/

namespace Sys2Proof.Tests

set_option Elab.async false

open Sys2Proof Sys2Proof.Machine

/-- A request frame with the three given bytes first, on bus 0 with the default `REQ_ID`. -/
def rx (b0 b1 b2 : Byte) : Frame := ⟨0, 0x7DF, 8, #v[b0, b1, b2, 0, 0, 0, 0, 0]⟩

/-- The reset state of a configuration with one request waiting. -/
def ask (c : Cfg) (e : Env) (f : Frame) : State := { State.reset with cfg := c, inbox := [.request e f] }

/-- The state a result holds, or the given one. -/
def stateOr {P B : Type} (s : State P B) : Result P B → State P B
  | .next t    => t
  | .fault _   => s
  | .refused _ => s

/-- The state after one step. -/
def after (s : State) : State := stateOr s (step s)

/-- The meaningful bytes of the frames committed by a current-data request of PID `pid` under the default configuration. -/
def live (pid : Byte) (e : Env) : List (List Byte) :=
  (after (ask Cfg.default e (rx 2 1 pid))).out.map (fun f => f.data.toList.take (f.data[0].toNat + 1))

/-- Whether a result is a refusal. -/
def isRefused : Result → Bool
  | .next _    => false
  | .fault _   => false
  | .refused _ => true

/-! ## Well-formedness: each clause of R33 refuses a term that breaks it -/

theorem test_default_config_is_well_formed : Cfg.default.wf = true := by decide
theorem test_clause1_window_past_255 : ({ Cfg.default with win2 := ⟨0x40, 0xE1, []⟩ } : Cfg).runnable = false := by decide
theorem test_clause1_overlapping_windows :
    ({ Cfg.default with win1 := ⟨0x20, 0x20, []⟩ } : Cfg).runnable = false := by decide
theorem test_clause2_33_descriptors :
    ({ Cfg.default with win1 := ⟨0x20, 0x21, List.replicate 33 ⟨0x25, .bare⟩⟩ } : Cfg).runnable = false := by decide
/-- X16. -/
theorem test_clause3_entry_outside_window :
    ({ Cfg.default with win0 := ⟨0x00, 0x01, [⟨0x9C, .value 2 (.named .rpm)⟩]⟩ } : Cfg).runnable = false := by decide

/-- The default configuration with `VSS` at the given width (95_test_vectors.md, Fatal assertion). -/
def vssWidth (w : Nat) : Cfg :=
  { Cfg.default with win0 := ⟨0x00, 0x01, (Cfg.defaultTab .w0).map
      (fun d => if d.id = 0x0D then ⟨0x0D, .value w (.named .vss)⟩ else d)⟩ }

theorem test_clause4_only_makes_defective : (vssWidth 3).wf = false ∧ (vssWidth 3).runnable = true := by decide
theorem test_clause5_handler_twice :
    ({ Cfg.default with win1 := ⟨0x20, 0x21, [⟨0x24, .lambda⟩, ⟨0x24, .value 1 (.named .map)⟩]⟩ } : Cfg).runnable = false := by
  decide
theorem test_clause5_handler_is_query :
    ({ Cfg.default with win1 := ⟨0x24, 0x21, Cfg.defaultTab .w1⟩ } : Cfg).runnable = false := by decide
theorem test_clause5_queries_equal :
    ({ Cfg.default with win1 := ⟨0x40, 0x21, Cfg.defaultTab .w1⟩ } : Cfg).runnable = false := by decide
theorem test_clause6_capacity_below_2 : ({ Cfg.default with dtcCap := some 1 } : Cfg).runnable = false := by decide
theorem test_query_pid_of_another_window_is_ill_formed : (Instr.sup0 0x20).wf Cfg.default = false := by decide
theorem test_pid_of_another_rule_is_ill_formed : (Instr.rpm 0x0D).wf Cfg.default = false := by decide
theorem test_lambda_pid_without_marker_is_ill_formed : (Instr.lambda 0x04).wf Cfg.default = false := by decide
theorem test_default_pids_are_well_formed :
    ([.sup0 0x00, .sup1 0x20, .sup2 0x40, .load 0x04, .ect 0x05, .stft1 0x06, .stft2 0x08, .map 0x0B, .rpm 0x0C, .vss 0x0D,
      .tadv 0x0E, .iat 0x0F, .tps 0x11, .lambda 0x24, .vbat 0x42, .eth 0x52, .oilt 0x5C, .dtcs, .dtcp, .dtcm]
      : List Instr).all (Instr.wf Cfg.default) = true := by decide
theorem test_default_pid_parameters : Cfg.default.pidLambda = some 0x24 ∧
    Cfg.default.pidOf .load = some 0x04 ∧ Cfg.default.pidOf .vss = some 0x0D ∧ Cfg.default.pidOf .oilt = some 0x5C := by
  decide

/-! ## Decoding: the words of the opcode map, as its table prints them -/

theorem test_decode_queries :
    decodeTableWord 24 0x020100 = some (.sup0 0x00) ∧ decodeTableWord 24 0x020120 = some (.sup1 0x20) ∧
    decodeTableWord 24 0x020140 = some (.sup2 0x40) := by decide
theorem test_decode_live_data :
    decodeTableWord 24 0x020104 = some (.load 0x04) ∧ decodeTableWord 24 0x020105 = some (.ect 0x05) ∧
    decodeTableWord 24 0x020106 = some (.stft1 0x06) ∧ decodeTableWord 24 0x020108 = some (.stft2 0x08) ∧
    decodeTableWord 24 0x02010B = some (.map 0x0B) ∧ decodeTableWord 24 0x02010C = some (.rpm 0x0C) ∧
    decodeTableWord 24 0x02010D = some (.vss 0x0D) ∧ decodeTableWord 24 0x02010E = some (.tadv 0x0E) ∧
    decodeTableWord 24 0x02010F = some (.iat 0x0F) ∧ decodeTableWord 24 0x020111 = some (.tps 0x11) ∧
    decodeTableWord 24 0x020124 = some (.lambda 0x24) ∧ decodeTableWord 24 0x020142 = some (.vbat 0x42) ∧
    decodeTableWord 24 0x020152 = some (.eth 0x52) ∧ decodeTableWord 24 0x02015C = some (.oilt 0x5C) := by decide
theorem test_decode_trouble_codes :
    decodeTableWord 24 0x000300 = some .dtcs ∧ decodeTableWord 24 0x000700 = some .dtcp ∧
    decodeTableWord 24 0x000A00 = some .dtcm ∧ decodeTableWord 24 0xFF03FF = some .dtcs ∧
    decodeTableWord 16 0x0300 = some .dtcs := by decide
/-- The bits of `RPM`'s word written out: 0000 0010, 0000 0001, 0000 1100. -/
theorem test_decode_rpm_bits : decodeWord Cfg.default 0b000000100000000100001100 = .request (.rpm 0x0C) := by decide
/-- X4, X5, X6. -/
theorem test_decode_drops :
    decodeWord Cfg.default 0x12010C = .drop .badLength ∧ decodeWord Cfg.default 0x020110 = .drop .unknownPid ∧
    decodeWord Cfg.default 0x02020C = .drop .unknownService ∧ decodeWord Cfg.default 0x010400 = .drop .unknownService := by
  decide
theorem test_every_row_runs_first_after_reset :
    [0x020100, 0x020120, 0x020140, 0x020104, 0x020105, 0x020106, 0x020108, 0x02010B, 0x02010C, 0x02010D, 0x02010E, 0x02010F,
     0x020111, 0x020124, 0x020142, 0x020152, 0x02015C, 0x000300, 0x000700, 0x000A00].all
      (fun w => (after (State.reset.withFetchWord 24 w)).out.length == 1) = true := by decide

/-! ## Live data -/

theorem test_load_50 : live 0x04 { load := some 50 } = [[0x03, 0x41, 0x04, 0x80]] := by decide +kernel
theorem test_load_negative : live 0x04 { load := some (-5) } = [[0x03, 0x41, 0x04, 0x00]] := by decide +kernel
/-- S1. -/
theorem test_ect_190 : live 0x05 { clt := some 190 } = [[0x03, 0x41, 0x05, 0xE6]] := by decide +kernel
/-- R61: an unavailable sensor answers 0x28. -/
theorem test_ect_unavailable : live 0x05 {} = [[0x03, 0x41, 0x05, 0x28]] := by decide +kernel
theorem test_stft1 : live 0x06 { stft1 := 102 / 100, stft2 := 5 } = [[0x03, 0x41, 0x06, 0x83]] := by decide +kernel
theorem test_stft2 : live 0x08 { stft1 := 102 / 100, stft2 := 98 / 100 } = [[0x03, 0x41, 0x08, 0x7D]] := by decide +kernel
theorem test_map_tie : live 0x0B { map := some (199 / 2) } = [[0x03, 0x41, 0x0B, 0x64]] := by decide +kernel
/-- S2. -/
theorem test_rpm_2000 : live 0x0C { rpm := some 2000 } = [[0x04, 0x41, 0x0C, 0x1F, 0x40]] := by decide +kernel
theorem test_rpm_saturates : live 0x0C { rpm := some 16384 } = [[0x04, 0x41, 0x0C, 0xFF, 0xFF]] := by decide +kernel
theorem test_vss_tie_saturates : live 0x0D { vehicleSpeed := some (509 / 2) } = [[0x03, 0x41, 0x0D, 0xFF]] := by
  decide +kernel
theorem test_tadv_360_is_not_folded : live 0x0E { timingAdvance := 360 } = [[0x03, 0x41, 0x0E, 0xFF]] := by decide +kernel
theorem test_tadv_710_is_folded : live 0x0E { timingAdvance := 710 } = [[0x03, 0x41, 0x0E, 0x6C]] := by decide +kernel
theorem test_iat_25 : live 0x0F { iat := some 25, clt := some 90 } = [[0x03, 0x41, 0x0F, 0x41]] := by decide +kernel
/-- S3. -/
theorem test_tps_100 : live 0x11 { tps := some 100 } = [[0x03, 0x41, 0x11, 0xFF]] := by decide +kernel
theorem test_lambda_085 : live 0x24 { lambda := some (85 / 100) } = [[0x06, 0x41, 0x24, 0x6C, 0xCC, 0x00, 0x00]] := by
  decide +kernel
theorem test_lambda_3_clamps : live 0x24 { lambda := some 3 } = [[0x06, 0x41, 0x24, 0xFE, 0xB8, 0x00, 0x00]] := by
  decide +kernel
theorem test_vbat_tie : live 0x42 { batteryVoltage := some (120005 / 10000) } = [[0x04, 0x41, 0x42, 0x2E, 0xE1]] := by
  decide +kernel
theorem test_eth_85 : live 0x52 { ethanol := some 85 } = [[0x03, 0x41, 0x52, 0xD9]] := by decide +kernel
theorem test_oilt_100 : live 0x5C { oilTemp := some 100 } = [[0x03, 0x41, 0x5C, 0x8C]] := by decide +kernel
/-- R143: "a half-to-even device would send 76" for 30 %. -/
theorem test_load_30_half_to_even :
    encodeValue .toEven 1 (30 * 255 / 100 : Phys) = 76 ∧ encodeValue .awayFromZero 1 (30 * 255 / 100 : Phys) = 77 := by decide +kernel
/-- 95_test_vectors.md, lambda: with round-to-nearest 0.85 gives 6CCD. -/
theorem test_lambda_nearest : lambdaQ16 .nearest (85 / 100 : Phys) = 0x6CCD := by decide +kernel

/-! ## The fatal assertion -/

/-- F1: no frame, `HALT` = 1, one read. -/
theorem test_f1_fatal_width :
    after (ask (vssWidth 3) { vehicleSpeed := some 50 } (rx 2 1 0x0D)) =
      { ask (vssWidth 3) {} (rx 2 1 0x0D) with
        halt := true, fatal := some ⟨.fWidth, 0x0D, 3⟩, reads := [.value (.sensor .vehicleSpeed)], inbox := [] } := by
  decide +kernel
/-- F2: width 0 is fatal too. -/
theorem test_f2_width_zero : (after (ask (vssWidth 0) {} (rx 2 1 0x0D))).halt = true := by decide
/-- F5: the mask builder does not look at widths. -/
theorem test_f5_mask_of_defective_table :
    (after (ask (vssWidth 3) {} (rx 2 1 0x00))).out = [⟨0, 0x7E8, 8, #v[0x06, 0x41, 0x00, 0x1D, 0x3E, 0x80, 0x00, 0x00]⟩] := by
  decide
/-- X14, F3: a halted block answers nothing. -/
theorem test_x14_halted : (after { ask Cfg.default {} (rx 1 3 0) with halt := true }).out = [] := by decide

/-! ## Masks, trouble codes, the dispatcher, other parameters -/

theorem test_m2_sup1 : live 0x20 {} = [[0x06, 0x41, 0x20, 0x10, 0x00, 0x00, 0x00]] := by decide
theorem test_m3_sup2 : live 0x40 {} = [[0x06, 0x41, 0x40, 0x40, 0x00, 0x40, 0x10]] := by decide
/-- M8: bit 31 is the first PID of the window. -/
theorem test_m8_first_pid : maskOf (⟨0x00, 0x01, [⟨0x01, .bare⟩]⟩ : Window) = 0x80000000 := by decide

/-- The default configuration with `PAD_BYTE` = AA, other ids and the bare entries 20 and 40 (P5). -/
def p5 : Cfg :=
  { Cfg.default with
    reqId := 0x18DB33F1, respId := 0x18DAF110, padByte := 0xAA
    win0 := ⟨0x00, 0x01, Cfg.defaultTab .w0 ++ [⟨0x20, .bare⟩]⟩
    win1 := ⟨0x20, 0x21, Cfg.defaultTab .w1 ++ [⟨0x40, .bare⟩]⟩ }

theorem test_p5_well_formed : p5.wf = true := by decide
/-- P5 step 1 (and M4). -/
theorem test_p5_sup0 : (after (ask p5 {} { rx 2 1 0 with id := 0x18DB33F1 })).out =
    [⟨0, 0x18DAF110, 8, #v[0x06, 0x41, 0x00, 0x1D, 0x3E, 0x80, 0x01, 0xAA]⟩] := by decide
/-- P5 step 5 (and T4, T7): the whole snapshot is kept, two codes are sent. -/
theorem test_p5_dtcs : after (ask p5 { dtc := [0x0101, 0x0202, 0x0303] } { rx 0 3 0xFF with id := 0x18DB33F1 }) =
    { ask p5 {} (rx 0 3 0) with
      scr := some [0x0101, 0x0202, 0x0303], reads := [.dtcSnapshot], inbox := []
      out := [⟨0, 0x18DAF110, 8, #v[0x06, 0x43, 0x02, 0x01, 0x01, 0x02, 0x02, 0xAA]⟩] } := by decide +kernel
/-- T2. -/
theorem test_t2_one_code : (after (ask Cfg.default { dtc := [0x0420] } (rx 1 3 0))).out =
    [⟨0, 0x7E8, 8, #v[0x04, 0x43, 0x01, 0x04, 0x20, 0x00, 0x00, 0x00]⟩] := by decide
/-- X12 (T7): nothing read, `SCR` untouched. -/
theorem test_x12_dtcp : after (ask Cfg.default { dtc := [1, 2, 3, 4, 5] } (rx 7 7 7)) =
    { State.reset with out := [⟨0, 0x7E8, 8, #v[0x02, 0x47, 0x00, 0, 0, 0, 0, 0]⟩] } := by decide +kernel
/-- X13 (T8). -/
theorem test_x13_dtcm : (after (ask Cfg.default { dtc := [1] } (rx 2 0x0A 0))).out =
    [⟨0, 0x7E8, 8, #v[0x02, 0x4A, 0x00, 0, 0, 0, 0, 0]⟩] := by decide
/-- X1: a foreign id leaves no trace. -/
theorem test_x1_foreign : after (ask Cfg.default { rpm := some 3000 } { rx 2 1 0x0C with id := 0x7E0 }) = State.reset := by
  decide +kernel
/-- X8: the bus is copied, `dlc` 3 and bytes 3..7 are not examined. -/
theorem test_x8_short_frame :
    (after (ask Cfg.default { vehicleSpeed := some (177 / 2) }
      ⟨1, 0x7DF, 3, #v[0x02, 0x01, 0x0D, 0xAA, 0xBB, 0xCC, 0xDD, 0xEE]⟩)).out =
    [⟨1, 0x7E8, 8, #v[0x03, 0x41, 0x0D, 0x59, 0, 0, 0, 0]⟩] := by decide +kernel
/-- S9. -/
theorem test_s9_status : dtcStatus 0 = 0x00 ∧ dtcStatus 1 = 0x80 ∧ dtcStatus 5 = 0x80 := by decide
/-- X16: an ill-formed configuration is refused. -/
theorem test_x16_refused :
    isRefused (step (ask { Cfg.default with win0 := ⟨0x00, 0x01, [⟨0x9C, .bare⟩]⟩ } {} (rx 2 1 0))) = true := by decide

/-! ## Other types of quantities and buses (00_scope.md R6) -/

/-- The reset state at another type of buses, with one request waiting. -/
def askOn (bus : Bool) (e : Env) (b0 b1 b2 : Byte) : State Phys Bool :=
  { State.resetAt Phys Bool with inbox := [.request e ⟨bus, 0x7DF, 8, #v[b0, b1, b2, 0, 0, 0, 0, 0]⟩] }

/-- S2 on a bus that is no number. -/
theorem test_rpm_2000_on_another_type_of_bus :
    stateOr (askOn true {} 0 0 0) (stepAt (askOn true { rpm := some 2000 } 2 1 0x0C)) =
      { askOn true {} 0 0 0 with
        reads := [.value (.sensor .rpm)], inbox := []
        out := [⟨true, 0x7E8, 8, #v[0x04, 0x41, 0x0C, 0x1F, 0x40, 0, 0, 0]⟩] } := by decide +kernel
/-- X12 (T7) on real quantities. -/
theorem test_dtcp_on_real_quantities (e : Env ℝ) :
    stepAt { State.resetAt ℝ Bool with inbox := [.request e ⟨true, 0x7DF, 8, #v[1, 7, 0, 0, 0, 0, 0, 0]⟩] } =
      .next { State.resetAt ℝ Bool with out := [⟨true, 0x7E8, 8, #v[0x02, 0x47, 0x00, 0, 0, 0, 0, 0]⟩] } := rfl
/-- The default configuration is well-formed at any type of quantities. -/
theorem test_default_config_is_well_formed_at_every_type (P : Type) : (Cfg.defaultAt P).wf = true := rfl

/-! ## Witnesses: states and operands that meet the hypotheses of the statements -/

/-- A configuration whose added descriptor 0x25 has the given rule. -/
def ruleCfg (rule : Formula) : Cfg :=
  { Cfg.default with win1 := ⟨0x20, 0x21, [⟨0x24, .lambda⟩, ⟨0x25, .value 2 (.added rule)⟩]⟩ }

/-- The state after a request for the added descriptor. -/
def added (rule : Formula) (e : Env) : State := after (ask (ruleCfg rule) e (rx 2 1 0x25))

/-- 41_value_encoder.md R159: a rule may divide by a sensor value, 7 / 2 = 3.5, a tie. -/
theorem test_added_division :
    (added (.div (.read (.sensor .rpm)) (.read (.sensor .load))) { rpm := some 7, load := some 2 }).out =
      [⟨0, 0x7E8, 8, #v[4, 0x41, 0x25, 0, 4, 0, 0, 0]⟩] := by decide +kernel
/-- A rule may read the snapshot, once, and leaves `SCR` alone. -/
theorem test_added_code_count :
    let s := added (.add .codeCount .codeCount) { dtc := [1, 2, 3] }
    s.out = [⟨0, 0x7E8, 8, #v[4, 0x41, 0x25, 0, 6, 0, 0, 0]⟩] ∧ s.reads = [.dtcSnapshot] ∧ s.scr = none := by decide +kernel
theorem test_added_floor :
    (added (.floor (.div (.read (.sensor .rpm)) (.const 2))) { rpm := some 7 }).out =
      [⟨0, 0x7E8, 8, #v[4, 0x41, 0x25, 0, 3, 0, 0, 0]⟩] := by decide +kernel
/-- A rule that divides by an unavailable sensor, and any other function: the request is answered, each key read once. -/
theorem test_added_free_values_do_not_stop :
    ((added (.div (.const 1) (.read (.sensor .load))) {}).out.length = 1 ∧
      (added (.div (.const 1) (.read (.sensor .load))) {}).halt = false) ∧
    (added (.free 0 [.value (.sensor .rpm), .dtcSnapshot, .value (.sensor .rpm)]) {}).out.length = 1 ∧
    (added (.free 0 [.value (.sensor .rpm), .dtcSnapshot, .value (.sensor .rpm)]) {}).reads =
      [.dtcSnapshot, .value (.sensor .rpm)] := by decide
/-- An arbitrary `rnd` or `lamq` does not stop a request. -/
theorem test_custom_conversions_do_not_stop :
    (after (ask { Cfg.default with ties := .custom 3 } {} (rx 2 1 0x0C))).out.length = 1 ∧
    (after (ask { Cfg.default with lamRule := .custom 3 } {} (rx 2 1 0x24))).out.length = 1 := by decide

theorem witness_ResetLeavesLatchClearAndScratchUnwritten :
    let s := { State.reset with halt := true, inbox := [Input.reset] }
    s.cfg.runnable = true ∧ s.inbox = .reset :: [] := by decide
theorem witness_ResetStateMeetsInvariant : Cfg.default.runnable = true := by decide
theorem witness_StepKeepsInvariant :
    ∃ t, Inv (ask Cfg.default {} (rx 2 1 0x0C)) ∧ step (ask Cfg.default {} (rx 2 1 0x0C)) = .next t := by
  refine ⟨_, ⟨by decide, rfl, ?_, ?_, ?_⟩, rfl⟩ <;> intro _ h <;> cases h
theorem witness_HaltedBlockTakesNoAction :
    let s := { ask Cfg.default {} (rx 2 1 0x0C) with halt := true }
    s.cfg.runnable = true ∧ s.halt = true ∧ s.inbox = .request {} (rx 2 1 0x0C) :: [] := by decide +kernel
theorem witness_OnlyResetClearsHalt :
    let s := { State.reset with halt := true, inbox := [Input.reset] }
    ∃ t, step s = .next t ∧ s.halt = true ∧ t.halt = false := ⟨_, rfl, rfl, rfl⟩
theorem witness_ConfigurationIsNeverMutated :
    ∃ t, Sys2Proof.core.run 1 (ask Cfg.default {} (rx 2 1 0x0C)) = .next t := ⟨_, rfl⟩
theorem witness_WellFormedRunNeverFaultsOrHalts : Good (ask Cfg.default {} (rx 2 1 0x0C)) := ⟨by decide, rfl⟩
theorem witness_RunAnswersEachMatchingRequestExactlyOnce :
    ∃ t, Good (ask Cfg.default {} (rx 2 1 0x0C)) ∧ Input.reset ∉ (ask Cfg.default {} (rx 2 1 0x0C)).inbox.take 1 ∧
      Sys2Proof.core.run 1 (ask Cfg.default {} (rx 2 1 0x0C)) = .next t ∧
      answerable Cfg.default (.request {} (rx 2 1 0x0C)) = true :=
  ⟨_, ⟨by decide, rfl⟩, by decide +kernel, rfl, by decide⟩
theorem witness_WellFormedStepGoesOnAtEveryType : Good (askOn true {} 2 1 0x0C) := ⟨by decide, rfl⟩
/-- At real quantities and the default registry: a value descriptor and the lambda marker. -/
theorem witness_EveryTypeRunsTheSameLiveData (e : Env ℝ) :
    let f : Byte → Frame Bool := fun pid => ⟨true, 0x7DF, 8, #v[2, 1, pid, 0, 0, 0, 0, 0]⟩
    let s : Byte → State ℝ Bool := fun pid => { State.resetAt ℝ Bool with inbox := [.request e (f pid)] }
    ∀ pid : Byte, pid = 0x0C ∨ pid = 0x24 →
      (s pid).cfg.runnable = true ∧ (s pid).halt = false ∧ (s pid).inbox = .request e (f pid) :: [] ∧
      (f pid).id = (s pid).cfg.reqId ∧ (f pid).word = wordOf 0x02 0x01 pid ∧
      (pid = 0x0C → (s pid).cfg.handler pid = some (.value 2 (.named .rpm)) ∧
        readsOf (paramInstr .rpm pid) = [.value (.sensor .rpm)]) ∧
      (pid = 0x24 → (s pid).cfg.handler pid = some .lambda) := by
  intro f s pid h
  refine ⟨rfl, rfl, rfl, rfl, rfl, ?_, ?_⟩ <;> rintro rfl
  exacts [⟨rfl, rfl⟩, rfl]
theorem witness_ForeignArbitrationIdIsIgnored :
    let f : Frame := { rx 2 1 0x0C with id := 0x7DE }
    Cfg.default.runnable = true ∧ (ask Cfg.default {} f).inbox = .request {} f :: [] ∧ f.id ≠ Cfg.default.reqId := by
  decide +kernel
theorem witness_WrongDeclaredLengthIsDropped :
    let f := rx 3 1 0x0C
    Cfg.default.runnable = true ∧ (ask Cfg.default {} f).inbox = .request {} f :: [] ∧ f.data[1] = 0x01 ∧
      f.data[0] ≠ 0x02 := by decide +kernel
theorem witness_UnrecognisedPidIsIgnored :
    let f := rx 2 1 0x10
    Cfg.default.runnable = true ∧ (ask Cfg.default {} f).inbox = .request {} f :: [] ∧ f.data[1] = 0x01 ∧
      f.data[0] = 0x02 ∧ (∀ k : WindowIndex, f.data[2] ≠ (Cfg.default.window k).qpid) ∧
      (∀ d : Descriptor, d ∈ Cfg.default.descriptors → d.kind ≠ .bare → d.id ≠ f.data[2]) := by
  refine ⟨by decide, rfl, by decide, by decide, ?_, by decide +kernel⟩
  intro k
  cases k <;> decide
theorem witness_UnknownServiceIsDropped :
    let f := rx 1 4 0
    Cfg.default.runnable = true ∧ (ask Cfg.default {} f).inbox = .request {} f :: [] ∧
      f.data[1] ≠ 0x01 ∧ f.data[1] ≠ 0x03 ∧ f.data[1] ≠ 0x07 ∧ f.data[1] ≠ 0x0A := by decide +kernel
theorem witness_StepRunsTheDecodedRequest :
    (ask Cfg.default {} (rx 2 1 0x0C)).halt = false ∧ Cfg.default.runnable = true ∧
      (ask Cfg.default {} (rx 2 1 0x0C)).inbox = .request {} (rx 2 1 0x0C) :: [] ∧
      (rx 2 1 0x0C).id = Cfg.default.reqId ∧ (rx 3 1 0x0C).id = Cfg.default.reqId ∧
      decodeWord Cfg.default (rx 2 1 0x0C).word = .request (.rpm 0x0C) ∧
      decodeWord Cfg.default (rx 3 1 0x0C).word = .drop .badLength := by decide +kernel
theorem witness_BlockIsIdleWithoutInput : State.reset.cfg.runnable = true ∧ State.reset.inbox = [] := by decide +kernel
theorem witness_PlacedWordRunsAsItsInstruction :
    State.reset.cfg.runnable = true ∧ State.reset.halt = false ∧ (Instr.oilt 0x5C).wf State.reset.cfg = true := by decide
theorem witness_DlcAndTrailingBytesAreNotExamined :
    let f := rx 2 1 0x0C
    let g : Frame := ⟨0, 0x7DF, 0, #v[2, 1, 0x0C, 9, 9, 9, 9, 9]⟩
    f ≠ g ∧ f.id = g.id ∧ f.bus = g.bus ∧ f.data[0] = g.data[0] ∧ f.data[1] = g.data[1] ∧ f.data[2] = g.data[2] := by decide
theorem witness_BusIsOnlyCopiedToTheResponse :
    ∃ t, step { State.reset with inbox := .request {} (rx 2 1 0x0C) :: [] } = .next t ∧ t.out ≠ [] :=
  ⟨_, rfl, by decide +kernel⟩
theorem witness_StepCommitsAtMostOneWellFormedFrame :
    ∃ t, (ask Cfg.default {} (rx 1 3 0)).inbox = .request {} (rx 1 3 0) :: [] ∧
      step (ask Cfg.default {} (rx 1 3 0)) = .next t ∧ t.out ≠ [] := ⟨_, rfl, rfl, by decide +kernel⟩
theorem witness_DecodeOfEncodeIsTheInstruction :
    Cfg.default.runnable = true ∧ (Instr.lambda 0x24).wf Cfg.default = true := by decide
theorem witness_WordDecodesExactlyWhenItsRowMatches :
    Cfg.default.runnable = true ∧ decodeWord Cfg.default 0xFF03FF = .request .dtcs ∧
      decodeWord Cfg.default 0x02010C ≠ .request (.rpm 0x0D) := by decide
theorem witness_NoWordMatchesTwoRows :
    Cfg.default.runnable = true ∧ (Instr.rpm 0x0C).wf Cfg.default = true ∧
      (0x02010C : BitVec 24) &&& rowMask (.rpm 0x0C) = rowMatch (.rpm 0x0C) := by decide
theorem witness_HandlerSetIsTheRegistry :
    Cfg.default.runnable = true ∧ Cfg.default.handler 0x24 = some .lambda ∧ Cfg.default.handler 0x20 = none := by
  decide +kernel
/-- The rows of `LiveRow`: each is listed under the default configuration at the width its rule names. -/
theorem witness_LiveRow :
    Cfg.default.runnable = true ∧
    [(Param.load, (0x04 : Byte), 1), (.ect, 0x05, 1), (.stft1, 0x06, 1), (.stft2, 0x08, 1), (.map, 0x0B, 1), (.rpm, 0x0C, 2),
     (.vss, 0x0D, 1), (.tadv, 0x0E, 1), (.iat, 0x0F, 1), (.tps, 0x11, 1), (.vbat, 0x42, 2), (.eth, 0x52, 1),
     (.oilt, 0x5C, 1)].all (fun r => Cfg.default.lists r.2.1 r.1 &&
       (Cfg.default.handler r.2.1 == some (.value r.2.2 (.named r.1))) &&
       ((ask Cfg.default {} (rx 2 1 r.2.1)).inbox == .request {} (rx 2 1 r.2.1) :: [])) = true := by decide +kernel
/-- The fold's two clauses meet at 360. -/
theorem witness_TimingRequestFoldsOnceAndAnswersItsByte : (721 / 2 : Phys) > 360 ∧ (360 : Phys) ≤ 360 := by decide +kernel
/-- A well-formed table may give `RPM` width 1, the other boundary of `LiveRow`'s width. -/
theorem witness_LiveRow_other_width :
    let c : Cfg := { Cfg.default with win0 := ⟨0x00, 0x01, [⟨0x0C, .value 1 (.named .rpm)⟩]⟩ }
    c.wf = true ∧ c.handler 0x0C = some (.value 1 (.named .rpm)) ∧
      (ask c {} (rx 2 1 0x0C)).inbox = .request {} (rx 2 1 0x0C) :: [] := by decide +kernel
theorem witness_LambdaRequestAnswersItsOwnFormat :
    Cfg.default.runnable = true ∧ Cfg.default.handler 0x24 = some .lambda ∧
      (ask Cfg.default {} (rx 2 1 0x24)).inbox = .request {} (rx 2 1 0x24) :: [] := by decide +kernel
/-- The machine's own quantities are such a field. -/
theorem witness_EveryOrderedFieldGivesTheSameBytes : Nonempty (IsStrictOrderedRing Phys) ∧ Nonempty (FloorRing Phys) :=
  ⟨⟨inferInstance⟩, ⟨inferInstance⟩⟩
theorem witness_LambdaQuantityStaysBelow65209 :
    (199 / 100 : Phys) ≤ 199 / 100 ∧ (1 / 32769 : Phys) < 1 / 32768 ∧
      LambdaRule.unspecified.isNeighbour = true ∧ 65208 ≤ 65208 := by decide +kernel
theorem witness_AddedDescriptorIsHandledLikeTheOthers :
    let rule := Formula.add (.read (.sensor .rpm)) (.read (.sensor .load))
    let c := ruleCfg rule
    let s := ask c { rpm := some 3, load := some 4 } (rx 2 1 0x25)
    c.runnable = true ∧ s.halt = false ∧ c.handler 0x25 = some (.value 2 (.added rule)) ∧
      (rx 2 1 0x25).id = c.reqId ∧ (rx 2 1 0x25).word = wordOf 0x02 0x01 0x25 ∧
      (after s).out = [⟨0, 0x7E8, 8, #v[4, 0x41, 0x25, 0, 7, 0, 0, 0]⟩] := by decide +kernel
theorem witness_UnsupportedWidthHaltsWithNoFrame :
    (vssWidth 3).handler 0x0D = some (.value 3 (.named .vss)) ∧ (vssWidth 0).handler 0x0D = some (.value 0 (.named .vss)) ∧
      (ask (vssWidth 3) {} (rx 2 1 0x0D)).inbox = .request {} (rx 2 1 0x0D) :: [] := by decide +kernel
/-- An added descriptor of width 3. -/
theorem witness_UnsupportedWidthHaltsWithNoFrame_added :
    (3 ≠ 1 ∧ 3 ≠ 2) ∧ ∃ t, execAdded 0x25 3 (.read (.sensor .rpm)) (ask Cfg.default {} (rx 2 1 0x25)) = .next t ∧
      t.halt = true := ⟨by decide, _, rfl, rfl⟩
theorem witness_OnlyGenericLiveDataCanHalt :
    (∃ t, exec .dtcs (ask Cfg.default {} (rx 1 3 0)) = .next t) ∧
    ∃ t, exec (.vss 0x0D) (ask (vssWidth 3) {} (rx 2 1 0x0D)) = .next t ∧ t.halt = true := ⟨⟨_, rfl⟩, _, rfl, rfl⟩
theorem witness_EncoderIsMonotone :
    TieRule.unspecified.isNearest = true ∧ (1 / 2 : Phys) ≤ 3 / 2 ∧ ∀ x : Phys, |(nearest true x : Phys) - x| ≤ 1 / 2 := by
  refine ⟨rfl, by decide +kernel, fun x => ?_⟩
  have h1 := Int.floor_le x
  have h2 := Int.lt_floor_add_one x
  obtain ⟨h, e⟩ | ⟨h, e⟩ | ⟨h, e⟩ := nearest_cases true x <;> rw [e, abs_le] <;>
    (try simp only [if_true]) <;> push_cast <;> constructor <;> linarith
theorem witness_EncoderIsExactOnIntegersInRange : TieRule.toEven.isNearest = true ∧ 255 ≤ 2 ^ (8 * 1) - 1 ∧ 65535 ≤ 2 ^ (8 * 2) - 1 := by decide
/-- Both ends of the range at their thresholds. -/
theorem witness_EncoderSaturatesAtBothEnds :
    1 ≤ 1 ∧ encodeValue .awayFromZero 1 (509 / 2 : Phys) = 255 ∧ encodeValue .awayFromZero 1 (1 / 2 : Phys) = 1 := by decide +kernel
theorem witness_RoundingGivesTheNearestInteger : TieRule.awayFromZero.isNearest = true ∧
    |((1 : Int) : Phys) - 1 / 2| ≤ 1 / 2 ∧ |((0 : Int) : Phys) - 1 / 2| ≤ 1 / 2 ∧
    (rnd .awayFromZero (-1 / 2 : Phys) : Phys) - (-1 / 2) = -1 / 2 ∧ (rnd .awayFromZero (1 / 2 : Phys) : Phys) - 1 / 2 = 1 / 2 := by
  decide +kernel
theorem witness_MaskQueriesReportTheirTable :
    Cfg.default.runnable = true ∧ (Cfg.default.window .w0).covers = true ∧ (Cfg.default.window .w1).covers = true ∧
      (Cfg.default.window .w2).covers = true ∧
      (ask Cfg.default {} (rx 2 1 0)).inbox = .request {} (rx 2 1 0) :: [] := by decide +kernel
theorem witness_MaskIgnoresTableOrder :
    [(⟨0x24, .lambda⟩ : Descriptor), ⟨0x25, .bare⟩].Perm [⟨0x25, .bare⟩, ⟨0x24, .lambda⟩] := List.Perm.swap _ _ _
theorem witness_MaskCountsDistinctIdentifiers :
    (⟨0x20, 0x21, [⟨0x24, .lambda⟩, ⟨0x24, .bare⟩]⟩ : Window).covers = true := by decide
/-- The first and the last PID of a window, and a PID absent from all tables. -/
theorem witness_MaskBitsFollowTheTables :
    Cfg.default.runnable = true ∧ (Cfg.default.window .w1).holds 0x21 = true ∧ (Cfg.default.window .w1).holds 0x40 = true ∧
      (∀ d : Descriptor, d ∈ Cfg.default.descriptors → d.id ≠ 0x21) := by decide +kernel
theorem witness_IllFormedConfigurationIsRefused :
    let c : Cfg :=
      { Cfg.default with
        win0 := ⟨0x00, 0x01, [⟨0x9C, .bare⟩]⟩, win1 := ⟨0x20, 0x21, [⟨0x41, .bare⟩]⟩, win2 := ⟨0x40, 0x41, [⟨0x40, .bare⟩]⟩ }
    (ask c {} (rx 2 1 0)).cfg.runnable = false ∧ c.win0.covers = false ∧ c.win1.covers = false ∧ c.win2.covers = false ∧
      (ask c {} (rx 2 1 0)).inbox = .request {} (rx 2 1 0) :: [] := by decide +kernel
theorem witness_StoredCodesRequestAnswersFirstTwoCodes :
    ({ Cfg.default with dtcCap := some 2 } : Cfg).capOk = true ∧
      (ask Cfg.default { dtc := [1, 2, 3] } (rx 1 3 0)).inbox = .request { dtc := [1, 2, 3] } (rx 1 3 0) :: [] := by
  decide +kernel
theorem witness_PendingAndPermanentAlwaysAnswerNone :
    (ask Cfg.default { dtc := [1] } (rx 1 7 0)).inbox = .request { dtc := [1] } (rx 1 7 0) :: [] := rfl
theorem witness_OldScratchNeverReachesAResponse :
    ∃ t, exec .dtcs (ask Cfg.default { dtc := [1] } (rx 1 3 0)) = .next t := ⟨_, rfl⟩
theorem witness_PayloadBytesAreBigEndian : 8000 < 2 ^ (8 * 2) ∧ 65535 < 2 ^ (8 * 2) := by decide
theorem witness_ResponseIsWhatItsByteWritesBuild : [(1 : Byte), 2, 3, 4].length ≤ 4 := by decide
theorem witness_RequestLeavesAllElseUnchanged :
    ∃ t, exec (.sup0 0) (ask Cfg.default {} (rx 2 1 0)) = .next t ∧ Instr.sup0 0 ≠ .dtcs := ⟨_, rfl, by decide⟩
theorem witness_EachRequestReadsItsKeysOnce :
    ∃ t, exec (.rpm 0x0C) (ask Cfg.default {} (rx 2 1 0x0C)) = .next t := ⟨_, rfl⟩
theorem witness_UnavailableSensorReadsAsZero :
    ({} : Env).sensor .clt = none ∧ ({ clt := some 0 } : Env).sensor .clt = some 0 ∧
      (∀ j : SensorKey, j ≠ .clt → ({} : Env).sensor j = ({ clt := some 0 } : Env).sensor j) ∧
      (∀ j : EngineKey, ({} : Env).engine j = ({ clt := some 0 } : Env).engine j) ∧
      ({} : Env).dtc = ({ clt := some 0 } : Env).dtc := by
  refine ⟨rfl, rfl, ?_, fun j => by cases j <;> rfl, rfl⟩
  intro j hj
  cases j <;> first | rfl | exact absurd rfl hj

end Sys2Proof.Tests
end

section
/-! SUPPORT. A step sees the collaborators only through the values their reads return and the fault-code snapshot
(20_memory.md R60), so a sensor that is unavailable cannot be told from one that reads zero (R61). -/

namespace Sys2Proof.Machine

variable {P B : Type}

/-- The state with a request as its next input. -/
def State.receiving (s : State P B) (e : Env P) (rx : Frame B) (rest : List (Input P B)) : State P B :=
  { s with inbox := .request e rx :: rest }

@[simp] theorem receiving_cfg (s : State P B) (e : Env P) (rx : Frame B) (rest : List (Input P B)) :
    (s.receiving e rx rest).cfg = s.cfg := rfl

@[simp] theorem receiving_halt (s : State P B) (e : Env P) (rx : Frame B) (rest : List (Input P B)) :
    (s.receiving e rx rest).halt = s.halt := rfl

@[simp] theorem receiving_inbox (s : State P B) (e : Env P) (rx : Frame B) (rest : List (Input P B)) :
    (s.receiving e rx rest).inbox = .request e rx :: rest := rfl

/-- The collaborator values leave the state with the request that carried them. -/
@[simp] theorem retire_receiving (s : State P B) (e : Env P) (rx : Frame B) (rest : List (Input P B)) :
    retire (s.receiving e rx rest) = { s with inbox := rest } := rfl

@[simp] theorem withRequest_receiving (s : State P B) (e : Env P) (rx : Frame B) (rest : List (Input P B))
    (k : Env P → Frame B → Result P B) : withRequest (s.receiving e rx rest) k = k e rx := rfl

@[simp] theorem retire_logRead (r : Read) (s : State P B) : retire (logRead r s) = logRead r (retire s) := rfl

@[simp] theorem retire_logReads (rs : List Read) (s : State P B) : retire (logReads rs s) = logReads rs (retire s) := by
  simp [logReads_eq, retire]

@[simp] theorem retire_refresh (e : Env P) (s : State P B) : retire (refresh e s) = refresh e (retire s) := rfl

@[simp] theorem onNext_retire_respond (bus : B) (echo third : Byte) (payload : List Byte) (s : State P B) :
    onNext retire (respond bus echo third payload s) = respond bus echo third payload (retire s) := rfl

@[simp] theorem onNext_retire_sendDtc (bus : B) (svc : Byte) (l : List Code) (s : State P B) :
    onNext retire (sendDtc bus svc l s) = sendDtc bus svc l (retire s) := rfl

/-- Two environments that differ in one sensor alone, unavailable in the first and zero in the second, return the same
value for every read (20_memory.md R61). -/
theorem value_eq_of_unavailable_of_zero [Zero P] {e f : Env P} {k : SensorKey} (he : e.sensor k = none)
    (hf : f.sensor k = some 0) (hs : ∀ j, j ≠ k → e.sensor j = f.sensor j) (hg : ∀ j, e.engine j = f.engine j) :
    e.value = f.value := by
  funext key
  cases key with
  | sensor j =>
    by_cases hj : j = k
    · subst hj
      simp [Env.value, he, hf]
    · simp [Env.value, hs j hj]
  | engine j => exact hg j

/-- The scratch takes nothing but the snapshot. -/
theorem refresh_congr {e f : Env P} (hd : e.dtc = f.dtc) (s : State P B) : refresh e s = refresh f s := by
  simp only [refresh, hd]

/-- A query's answer takes nothing from the collaborators. -/
theorem onNext_retire_sendMask_receiving (k : WindowIndex) (pid : Byte) (s : State P B) (e f : Env P) (rx : Frame B)
    (rest : List (Input P B)) :
    onNext retire (sendMask k pid (s.receiving e rx rest)) = onNext retire (sendMask k pid (s.receiving f rx rest)) := by
  cases h : (s.cfg.window k).covers <;> simp [sendMask, h]

section OrderedField

variable [Field P] [LinearOrder P] [FloorRing P]

@[simp] theorem onNext_retire_sendValue (bus : B) (pid : Byte) (w : Nat) (q : P) (s : State P B) :
    onNext retire (sendValue bus pid w q s) = sendValue bus pid w q (retire s) := by
  unfold sendValue
  split_ifs <;> rfl

section SameAnswers

/-! Two environments whose reads return the same values and whose snapshots are equal. -/

variable {e f : Env P} (hv : e.value = f.value) (hd : e.dtc = f.dtc)
include hv hd

/-- An added scaling rule is a function of what the reads return. -/
theorem evalFormula_congr [Inhabited P] (rule : Formula P) : evalFormula e rule = evalFormula f rule := by
  induction rule with
  | const v => rfl
  | read k => simp only [evalFormula, hv]
  | codeCount => simp only [evalFormula, hd]
  | add a b iha ihb => simp only [evalFormula, iha, ihb]
  | sub a b iha ihb => simp only [evalFormula, iha, ihb]
  | mul a b iha ihb => simp only [evalFormula, iha, ihb]
  | div a b iha ihb => simp only [evalFormula, iha, ihb]
  | floor a iha => simp only [evalFormula, iha]
  | ifGt a b t u iha ihb iht ihu => simp only [evalFormula, iha, ihb, iht, ihu]
  | free n rs => simp only [evalFormula, hv, hd]

variable (rx : Frame B) (rest : List (Input P B)) (s : State P B)

/-- Each of the twenty requests is answered alike. -/
theorem onNext_retire_execAt_congr (i : Instr) :
    onNext retire (execAt i (s.receiving e rx rest)) = onNext retire (execAt i (s.receiving f rx rest)) := by
  obtain ⟨p, pid, rfl⟩ | ⟨k, pid, rfl⟩ | ⟨pid, rfl⟩ | rfl | rfl | rfl := instr_cases i
  · simp [execAt_paramInstr, liveValue_request (receiving_inbox s _ rx rest), hv]
  · simpa only [execAt_supInstr] using onNext_retire_sendMask_receiving k pid s e f rx rest
  · simp [execAt, execLambda, readKey, hv]
  · simp [execAt, execDtcs_request (receiving_inbox s _ rx rest), refresh_congr hd, hd]
  · simp [execAt, execDtcp]
  · simp [execAt, execDtcm]

/-- The request of an added descriptor is answered alike. -/
theorem onNext_retire_execAdded_congr [Inhabited P] (pid : Byte) (w : Nat) (rule : Formula P) :
    onNext retire (execAdded pid w rule (s.receiving e rx rest)) =
      onNext retire (execAdded pid w rule (s.receiving f rx rest)) := by
  simp [execAdded, evalFormula_congr hv hd]

/-- What the decoder makes of a frame is run alike, a drop included. -/
theorem onNext_retire_runDecoded_congr [Inhabited P] (d : Decoded P) :
    onNext retire (runDecoded execAt d (s.receiving e rx rest)) =
      onNext retire (runDecoded execAt d (s.receiving f rx rest)) := by
  cases d with
  | request i => exact onNext_retire_execAt_congr hv hd rx rest s i
  | added pid w rule => exact onNext_retire_execAdded_congr hv hd rx rest s pid w rule
  | drop c => rfl

/-- A step depends on the collaborators through the values of their reads and the snapshot alone (20_memory.md R60). -/
theorem stepAt_congr_env [Inhabited P] : stepAt (s.receiving e rx rest) = stepAt (s.receiving f rx rest) := by
  have handled : onNext retire (handle execAt rx (s.receiving e rx rest)) =
      onNext retire (handle execAt rx (s.receiving f rx rest)) := by
    cases hh : s.halt with
    | true => simp [handle, hh]
    | false => simpa [handle, hh] using onNext_retire_runDecoded_congr hv hd rx rest s (decodeFrame s.cfg rx)
  cases hc : s.cfg.runnable with
  | true => simpa [stepAt, invoke, hc] using handled
  | false => simp [stepAt, invoke, hc]

end SameAnswers

end OrderedField

/-- Settles O60: unavailable and zero return the same value from every read, and a step sees nothing else of a sensor. -/
theorem unavailableSensorReadsAsZero : Obligations.UnavailableSensorReadsAsZero := by
  unfold Obligations.UnavailableSensorReadsAsZero
  intro k s e f rx rest he hf hs hg hd
  rw [step_eq_stepAt, step_eq_stepAt]
  exact stepAt_congr_env (value_eq_of_unavailable_of_zero he hf hs hg) hd rx rest s

end Sys2Proof.Machine
end

section
/-! SUPPORT. Frames that are dropped (30_encoding.md R91; 40_dispatch.md R111, R113, R116). Each drop is a fact about the
decoder; that a drop has no effect is one lemma about the step. -/

namespace Sys2Proof

variable {P B : Type}

@[simp] theorem lenField_word (f : Frame B) : lenField f.word = f.data[0] := lenField_wordOf _ _ _

@[simp] theorem svcField_word (f : Frame B) : svcField f.word = f.data[1] := svcField_wordOf _ _ _

@[simp] theorem pidField_word (f : Frame B) : pidField f.word = f.data[2] := pidField_wordOf _ _ _

theorem decodeFrame_of_id_eq {c : Cfg P} {f : Frame B} (h : f.id = c.reqId) : decodeFrame c f = decodeWord c f.word :=
  if_pos h

theorem decodeFrame_of_id_ne {c : Cfg P} {f : Frame B} (h : f.id ≠ c.reqId) : decodeFrame c f = .drop .foreignFrame :=
  if_neg h

theorem decodeWord_of_length_eq (c : Cfg P) {w : BitVec 24} (hs : svcField w = 0x01) (hl : lenField w = 0x02) :
    decodeWord c w = decodePid c (pidField w) := by
  rw [decodeWord, if_pos hs, if_pos hl]

theorem decodeWord_of_length_ne (c : Cfg P) {w : BitVec 24} (hs : svcField w = 0x01) (hl : lenField w ≠ 0x02) :
    decodeWord c w = .drop .badLength := by
  rw [decodeWord, if_pos hs, if_neg hl]

theorem decodeWord_of_service_unknown (c : Cfg P) {w : BitVec 24} (h1 : svcField w ≠ 0x01) (h3 : svcField w ≠ 0x03)
    (h7 : svcField w ≠ 0x07) (hA : svcField w ≠ 0x0A) : decodeWord c w = .drop .unknownService := by
  rw [decodeWord, if_neg h1, if_neg h3, if_neg h7, if_neg hA]

/-- A frame whose request word is dropped is dropped whatever its arbitration id, which can only drop it sooner. -/
theorem decodeFrame_drop_of_word {c : Cfg P} {f : Frame B} {d : DropClass} (h : decodeWord c f.word = .drop d) :
    ∃ d', decodeFrame c f = .drop d' := by
  by_cases hid : f.id = c.reqId
  · exact ⟨d, (decodeFrame_of_id_eq hid).trans h⟩
  · exact ⟨.foreignFrame, decodeFrame_of_id_ne hid⟩

namespace Machine

section OrderedField

variable [Field P] [LinearOrder P] [FloorRing P] [Inhabited P]

/-- A step on a dropped frame uses up the input and does nothing else, halted or not (40_dispatch.md R119). -/
theorem invoke_of_drop (ex : Instr → State P B → Result P B) {s : State P B} {env : Env P} {rx : Frame B}
    {rest : List (Input P B)} {d : DropClass} (hc : s.cfg.runnable = true) (hin : s.inbox = .request env rx :: rest)
    (hd : decodeFrame s.cfg rx = .drop d) : invoke ex s = .next { s with inbox := rest } := by
  have hretire : retire s = { s with inbox := rest } := by rw [retire, hin, List.tail_cons]
  have hhandle : handle ex rx s = .next s := by rw [handle, hd, runDecoded, ite_self]
  simp only [invoke, if_pos hc, hin, hhandle, onNext_next, hretire]

end OrderedField

/-- The step at the default types on a frame whose request word is dropped, whatever its arbitration id. -/
theorem step_of_word_drop {s : State} {env : Env} {rx : Frame} {rest : List Input} {d : DropClass}
    (hc : s.cfg.runnable = true) (hin : s.inbox = .request env rx :: rest) (hd : decodeWord s.cfg rx.word = .drop d) :
    step s = .next { s with inbox := rest } := by
  obtain ⟨d', hd'⟩ := decodeFrame_drop_of_word hd
  exact invoke_of_drop exec hc hin hd'

/-- Settles O10: the arbitration id is tested first, and a foreign frame is a drop. -/
theorem foreignArbitrationIdIsIgnored : Obligations.ForeignArbitrationIdIsIgnored := by
  unfold Obligations.ForeignArbitrationIdIsIgnored
  refine ⟨fun c rx hid => decodeFrame_of_id_eq hid, ?_⟩
  intro s env rx rest hc hin hid
  exact invoke_of_drop exec hc hin (decodeFrame_of_id_ne hid)

/-- Settles O11: under service 01 the decoder goes on to the PID select exactly when data byte 0 is 2. -/
theorem wrongDeclaredLengthIsDropped : Obligations.WrongDeclaredLengthIsDropped := by
  unfold Obligations.WrongDeclaredLengthIsDropped
  constructor
  · intro c rx hid hsvc hlen
    rw [decodeFrame_of_id_eq hid, decodeWord_of_length_eq c (by simpa using hsvc) (by simpa using hlen), pidField_word]
  · intro s env rx rest hc hin hsvc hlen
    exact step_of_word_drop hc hin (decodeWord_of_length_ne s.cfg (by simpa using hsvc) (by simpa using hlen))

/-- Settles O13: a service byte that matches none of the four branches is a drop. -/
theorem unknownServiceIsDropped : Obligations.UnknownServiceIsDropped := by
  unfold Obligations.UnknownServiceIsDropped
  intro s env rx rest hc hin h1 h3 h7 hA
  rw [← svcField_word rx] at h1 h3 h7 hA
  exact step_of_word_drop hc hin (decodeWord_of_service_unknown s.cfg h1 h3 h7 hA)

end Machine

end Sys2Proof
end

section
/-! SUPPORT. What a trouble-code response sends (43_dtc.md R201, R205): it depends on the first two codes alone, and the
third byte of a frame the sink builds is the one it was given. -/

namespace Sys2Proof.Machine

variable {P B : Type}

/-- The payload starts above byte 2, so no later write touches the third byte (44_frame_sink.md R221). -/
theorem writeBytes_responseWrites_third (f : Frame B) (echo third : Byte) (payload : List Byte) :
    (writeBytes f (responseWrites echo third payload)).data[(2 : Fin 8)] = third := by
  have payloadAboveThird : ∀ w ∈ List.zip ([3, 4, 5, 6] : List (Fin 8)) payload, w.1 ≠ 2 := by
    intro w hw h2
    exact absurd (h2 ▸ (List.of_mem_zip hw).1) (by decide)
  have payloadLast : writeBytes f (responseWrites echo third payload) =
      writeBytes (writeByte (writeByte (writeByte f 0 (BitVec.ofNat 8 (2 + payload.length))) 1 echo) 2 third)
        (List.zip [3, 4, 5, 6] payload) := rfl
  rw [payloadLast, writeBytes_untouched _ _ _ payloadAboveThird, writeByte_data, if_pos rfl]

/-- A trouble-code response counts and carries the first two codes (43_dtc.md R201). -/
theorem sendDtc_eq_respond (bus : B) (svc : Byte) (l : List Code) (s : State P B) :
    sendDtc bus svc l s =
      respond bus (0x40 + svc) (BitVec.ofNat 8 (l.take 2).length) (codeBytes (l.take 2)) s := by
  have hcodes : l.take (min l.length 2) = l.take 2 := by rw [List.take_eq_take_iff]; omega
  rw [sendDtc, hcodes, List.length_take, Nat.min_comm 2]

/-- Truncating the list first changes no response (43_dtc.md R205). -/
theorem sendDtc_take_two (bus : B) (svc : Byte) (l : List Code) (s : State P B) :
    sendDtc bus svc (l.take 2) s = sendDtc bus svc l s := by
  rw [sendDtc_eq_respond, sendDtc_eq_respond, List.take_take, Nat.min_self]

/-- A trouble-code response is one frame, whose third byte counts the codes sent. -/
theorem sendDtc_commits_count (bus : B) (svc : Byte) (l : List Code) (s : State P B) :
    ∃ f : Frame B, sendDtc bus svc l s = .next { s with out := s.out ++ [f] } ∧
      f.data[(2 : Fin 8)] = BitVec.ofNat 8 (l.take 2).length :=
  ⟨_, sendDtc_eq_respond bus svc l s, writeBytes_responseWrites_third _ _ _ _⟩

/-- Settles O52: a response is a function of the first two codes, and its count byte is the number of those. -/
theorem longCodeListIsTruncatedToTwo : Obligations.LongCodeListIsTruncatedToTwo := by
  unfold Obligations.LongCodeListIsTruncatedToTwo
  intro bus svc l s
  obtain ⟨f, hsend, hcount⟩ := sendDtc_commits_count bus svc l s
  refine ⟨(sendDtc_take_two bus svc l s).symm, f, hsend, ?_⟩
  calc f.data[2].toNat = (l.take 2).length % 2 ^ 8 := by rw [← BitVec.toNat_ofNat, ← hcount]; rfl
    _ ≤ (l.take 2).length := Nat.mod_le _ _
    _ ≤ 2 := List.length_take_le 2 l

end Sys2Proof.Machine
end

section
/-! SUPPORT. What the sink builds (44_frame_sink.md R220 to R222): every response is one committed `replyFrame`, so the
effect of a request can be read as `State.answered`. Also the bytes of a payload (20_memory.md R51) and of a
trouble-code response (43_dtc.md R201, R206). -/

namespace Sys2Proof.Machine

variable {P B : Type}

/-- The meaningful bytes of a response: declared length, echo, third byte, payload (30_encoding.md R83). -/
def responseBytes (echo third : Byte) (payload : List Byte) : List Byte :=
  [BitVec.ofNat 8 (2 + payload.length), echo, third] ++ payload

theorem replyFrame_data (c : Cfg P) (bus : B) (bs : List Byte) (i : Nat) (h : i < 8) :
    (replyFrame c bus bs).data[i] = bs.getD i c.padByte := by
  simp [replyFrame]

/-- The byte writes of a response fill the frame from byte 0 on and leave `PAD_BYTE` above (44_frame_sink.md R220, R221):
one evaluation for each payload length the formats have. -/
theorem writeBytes_responseWrites (c : Cfg P) (bus : B) (echo third : Byte) {payload : List Byte}
    (h : payload.length ≤ 4) :
    writeBytes (openFrame c bus) (responseWrites echo third payload) =
      replyFrame c bus (responseBytes echo third payload) := by
  match payload, h with
  | [], _ => rfl
  | [_], _ => rfl
  | [_, _], _ => rfl
  | [_, _, _], _ => rfl
  | [_, _, _, _], _ => rfl

theorem respond_eq_answered (bus : B) (echo third : Byte) {payload : List Byte} (h : payload.length ≤ 4)
    (s : State P B) :
    respond bus echo third payload s = .next (s.answered [] bus (responseBytes echo third payload)) := by
  rw [respond, writeBytes_responseWrites s.cfg bus echo third h]
  simp [commit, State.answered]

@[simp] theorem answered_logRead (s : State P B) (r : Read) (rs : List Read) (bus : B) (bs : List Byte) :
    (logRead r s).answered rs bus bs = s.answered (r :: rs) bus bs := by
  simp [State.answered, logRead]

@[simp] theorem answered_logReads (s : State P B) (qs rs : List Read) (bus : B) (bs : List Byte) :
    (logReads qs s).answered rs bus bs = s.answered (qs ++ rs) bus bs := by
  simp [State.answered, logReads_eq]

@[simp] theorem answered_refresh (env : Env P) (s : State P B) (rs : List Read) (bus : B) (bs : List Byte) :
    (refresh env s).answered rs bus bs =
      { s.answered (.dtcSnapshot :: rs) bus bs with scr := some (capped s.cfg env.dtc) } := by
  simp [State.answered, refresh, logRead]

/-- Settles O57: the general form is `respond_eq_answered`, at any types. -/
theorem responseIsWhatItsByteWritesBuild : Obligations.ResponseIsWhatItsByteWritesBuild := by
  unfold Obligations.ResponseIsWhatItsByteWritesBuild
  exact fun bus echo third _ s h => respond_eq_answered bus echo third h s

/-! ## Payload bytes -/

/-- The last of the big-endian bytes is the least significant one, the others are those of the value without it. -/
theorem bytesBE_succ (n v : Nat) : bytesBE (n + 1) v = bytesBE n (v / 256) ++ [BitVec.ofNat 8 v] := by
  have upper : ∀ i ∈ List.range n, byteBE v (n + 1) i = byteBE (v / 256) n i := by
    intro i hi
    have hlt := List.mem_range.mp hi
    have hshift : 8 * (n + 1 - 1 - i) = 8 + 8 * (n - 1 - i) := by omega
    rw [byteBE, byteBE, hshift, Nat.shiftRight_add, Nat.shiftRight_eq_div_pow v 8]
  rw [bytesBE, List.range_succ, List.map_append, List.map_congr_left upper]
  simp [bytesBE, byteBE]

theorem foldl_bytesBE (n v : Nat) : (bytesBE n v).foldl (fun acc b => acc * 256 + b.toNat) 0 = v % 2 ^ (8 * n) := by
  induction n generalizing v with
  | zero => simp [bytesBE, Nat.mod_one]
  | succ n ih =>
    have hpow : 2 ^ (8 * (n + 1)) = 256 * 2 ^ (8 * n) := by rw [Nat.mul_succ, Nat.add_comm, Nat.pow_add]
    rw [bytesBE_succ, List.foldl_append, ih, hpow, Nat.mod_mul]
    simp only [List.foldl_cons, List.foldl_nil, BitVec.toNat_ofNat]
    omega

/-- Settles O56: the bytes read back the value modulo `2 ^ (8 * n)`, by induction on their number. -/
theorem payloadBytesAreBigEndian : Obligations.PayloadBytesAreBigEndian := by
  unfold Obligations.PayloadBytesAreBigEndian
  intro n v hv
  exact ⟨bytesBE_length n v, (foldl_bytesBE n v).trans (Nat.mod_eq_of_lt hv)⟩

/-- A value response of width 1 or 2 has the meaningful bytes of its format. -/
theorem responseBytes_value (pid : Byte) {w : Nat} (hw : w = 1 ∨ w = 2) (r : Nat) :
    responseBytes 0x41 pid (bytesBE w r) = valueBytes w pid r := by
  obtain rfl | rfl := hw
  · rfl
  · have hlow : BitVec.ofNat 8 r = BitVec.ofNat 8 (r % 256) := BitVec.eq_of_toNat_eq (by simp)
    rw [bytesBE_two, hlow]
    rfl

/-- The four bytes of a 32-bit field. -/
theorem bytesBE_four (m : BitVec 32) : bytesBE 4 m.toNat =
    [m.extractLsb' 24 8, m.extractLsb' 16 8, m.extractLsb' 8 8, m.extractLsb' 0 8] := rfl

/-- The four bytes of the lambda field: the quantity, then zeros (41_value_encoder.md R153). -/
theorem bytesBE_lambdaField (q : BitVec 16) : bytesBE 4 (lambdaField q).toNat = bytesBE 2 q.toNat ++ [0, 0] := by
  have hfield : (lambdaField q).toNat = q.toNat * 256 * 256 := by
    have := q.isLt
    simp [lambdaField, Nat.shiftLeft_eq]
    omega
  have hzero (v : Nat) : BitVec.ofNat 8 (v * 256) = 0 := BitVec.eq_of_toNat_eq (by simp)
  rw [bytesBE_succ, bytesBE_succ, hfield, Nat.mul_div_cancel _ (by decide), Nat.mul_div_cancel _ (by decide),
    List.append_assoc, hzero, hzero]
  rfl

/-! ## Trouble-code bytes -/

theorem codeBytes_take_two_length_le (l : List Code) : (codeBytes (l.take 2)).length ≤ 4 := by
  have := List.length_take_le 2 l
  rw [codeBytes_length]
  omega

/-- The meaningful bytes of a trouble-code response (43_dtc.md R201). -/
def codeResponseBytes (svc : Byte) (l : List Code) : List Byte :=
  responseBytes (0x40 + svc) (BitVec.ofNat 8 (l.take 2).length) (codeBytes (l.take 2))

theorem sendDtc_eq_answered (bus : B) (svc : Byte) (l : List Code) (s : State P B) :
    sendDtc bus svc l s = .next (s.answered [] bus (codeResponseBytes svc l)) := by
  rw [sendDtc_eq_respond, respond_eq_answered _ _ _ (codeBytes_take_two_length_le l), codeResponseBytes]

/-- Settles O54: the length byte counts two bytes for each code sent, and two more. -/
theorem codeResponseCountsItsCodes : Obligations.CodeResponseCountsItsCodes := by
  unfold Obligations.CodeResponseCountsItsCodes
  intro bus svc l s
  refine ⟨replyFrame s.cfg bus (codeResponseBytes svc l), ?_, ?_⟩
  · rw [sendDtc_eq_answered]
    simp [State.answered]
  · have hlen := List.length_take (l := l) (i := 2)
    simp [replyFrame_data, codeResponseBytes, responseBytes, codeBytes_length]
    omega

/-- Settles O55, by the two branches of the expression. -/
theorem statusByteIsTheLiteralExpression : Obligations.StatusByteIsTheLiteralExpression := by
  unfold Obligations.StatusByteIsTheLiteralExpression
  intro n
  by_cases h : n = 0
  · simp [dtcStatus, h]
  · simp [dtcStatus, h]

end Sys2Proof.Machine
end

section
/-! SUPPORT. The decoder is the opcode map (30_encoding.md R89, R90, R91; 40_dispatch.md R112 to R117): the PID select and
the service select inverted once, the rows of the map, and the frames in no row. -/

namespace Sys2Proof

variable {P B : Type}

/-! ## The registry -/

theorem mem_handlers_iff (c : Cfg P) (d : Descriptor P) : d ∈ c.handlers ↔ d ∈ c.descriptors ∧ d.kind ≠ .bare := by
  simp [Cfg.handlers, hasHandler_iff]

theorem handler_ne_bare {c : Cfg P} {pid : Byte} {k : Kind P} (h : c.handler pid = some k) : k ≠ .bare :=
  ((mem_handlers_iff c _).mp (handler_mem h)).2

theorem runnable_pidsOk {c : Cfg P} (h : c.runnable = true) : c.pidsOk = true :=
  have ⟨_, _, _, hpids, _⟩ := (runnable_iff c).mp h
  hpids

/-- Clause 5 of R33: a PID is the identifier of at most one descriptor with a handler. -/
theorem handler_of_mem {c : Cfg P} (h : c.pidsOk = true) {pid : Byte} {k : Kind P}
    (hm : (⟨pid, k⟩ : Descriptor P) ∈ c.handlers) : c.handler pid = some k := by
  have hnodup : (c.handlers.map (·.id)).Nodup := by
    simp only [Cfg.pidsOk, decide_eq_true_eq, List.nodup_cons] at h
    exact h.2.2.2
  cases hk : c.handler pid with
  | none =>
    obtain ⟨hd, hbare⟩ := (mem_handlers_iff c _).mp hm
    exact absurd rfl ((handler_none_iff c pid).mp hk _ hd hbare)
  | some k' =>
    have heq := List.inj_on_of_nodup_map hnodup (handler_mem hk) hm rfl
    cases heq
    rfl

/-- Settles O26: clause 5 makes the first descriptor with a PID the only one that has a handler. -/
theorem handlerSetIsTheRegistry : Obligations.HandlerSetIsTheRegistry := by
  unfold Obligations.HandlerSetIsTheRegistry
  intro c pid k hc
  rw [← mem_handlers_iff c ⟨pid, k⟩]
  exact ⟨handler_mem, handler_of_mem (runnable_pidsOk hc)⟩

/-! ## The rows of the opcode map -/

@[simp] theorem encode_paramInstr (p : Param) (pid : Byte) : encode (paramInstr p pid) = wordOf 0x02 0x01 pid := by
  cases p <;> rfl

@[simp] theorem encode_supInstr (k : WindowIndex) (pid : Byte) : encode (supInstr k pid) = wordOf 0x02 0x01 pid := by
  cases k <;> rfl

@[simp] theorem encode_lambda (pid : Byte) : encode (.lambda pid) = wordOf 0x02 0x01 pid := rfl

theorem wf_paramInstr (c : Cfg P) (p : Param) (pid : Byte) : (paramInstr p pid).wf c = c.lists pid p := by
  cases p <;> rfl

theorem wf_supInstr (c : Cfg P) (k : WindowIndex) (pid : Byte) : (supInstr k pid).wf c = (pid == (c.window k).qpid) := by
  cases k <;> rfl

/-- A word matches a current-data row exactly when it is the row's word: the mask is all ones. -/
theorem rowMatch_currentData_iff {i : Instr} (hm : rowMask i = 0xFFFFFF) (w : BitVec 24) :
    w &&& rowMask i = rowMatch i ↔ w = encode i := by
  have hones (v : BitVec 24) : v &&& 0xFFFFFF = v := BitVec.and_allOnes
  rw [rowMatch, hm, hones, hones]

/-- A word matches a trouble-code row exactly when it has the row's service byte. -/
theorem rowMatch_troubleCode_iff {i : Instr} (hm : rowMask i = 0x00FF00) (w : BitVec 24) :
    w &&& rowMask i = rowMatch i ↔ svcField w = svcField (encode i) := by
  rw [rowMatch, hm, and_serviceMask_eq_iff]

theorem rowMask_paramInstr (p : Param) (pid : Byte) : rowMask (paramInstr p pid) = 0xFFFFFF := by
  cases p <;> rfl

theorem rowMask_supInstr (k : WindowIndex) (pid : Byte) : rowMask (supInstr k pid) = 0xFFFFFF := by
  cases k <;> rfl

/-! ## The PID select -/

theorem decodePid_qpid {c : Cfg P} (h : c.pidsOk = true) (k : WindowIndex) :
    decodePid c (c.window k).qpid = .request (supInstr k (c.window k).qpid) := by
  obtain ⟨h01, h02, h12⟩ := qpids_distinct h
  cases k with
  | w0 => exact if_pos rfl
  | w1 => exact (if_neg h01.symm).trans (if_pos rfl)
  | w2 => exact (if_neg h02.symm).trans ((if_neg h12.symm).trans (if_pos rfl))

/-- What the PID select can do (40_dispatch.md R114, R115): a query, a handler's rule, or no handler. -/
theorem decodePid_cases (c : Cfg P) (pid : Byte) :
    (∃ k, pid = (c.window k).qpid ∧ decodePid c pid = .request (supInstr k pid)) ∨
    ((∀ k, pid ≠ (c.window k).qpid) ∧
      ((∃ k, c.handler pid = some k ∧ decodePid c pid = liveRequest pid k) ∨
       (c.handler pid = none ∧ decodePid c pid = .drop .unknownPid))) := by
  by_cases h0 : pid = c.win0.qpid
  · exact .inl ⟨.w0, h0, if_pos h0⟩
  by_cases h1 : pid = c.win1.qpid
  · exact .inl ⟨.w1, h1, (if_neg h0).trans (if_pos h1)⟩
  by_cases h2 : pid = c.win2.qpid
  · exact .inl ⟨.w2, h2, (if_neg h0).trans ((if_neg h1).trans (if_pos h2))⟩
  have hselect : decodePid c pid = _ := (if_neg h0).trans ((if_neg h1).trans (if_neg h2))
  refine .inr ⟨fun k => ?_, ?_⟩
  · cases k <;> assumption
  · cases hk : c.handler pid with
    | some k => exact .inl ⟨k, rfl, by rw [hselect, hk]⟩
    | none => exact .inr ⟨rfl, by rw [hselect, hk]⟩

/-- The handlers that select a request kind, and the kind they select. -/
theorem liveRequest_eq_request {pid : Byte} {k : Kind P} {i : Instr} (h : liveRequest pid k = .request i) :
    (∃ w p, k = .value w (.named p) ∧ i = paramInstr p pid) ∨ (k = .lambda ∧ i = .lambda pid) := by
  rcases k with ⟨w, p | e⟩ | _ | _ <;> cases h
  · exact .inl ⟨w, p, rfl, rfl⟩
  · exact .inr ⟨rfl, rfl⟩

/-- A PID that selects a request kind is in that kind's row. -/
theorem wf_of_decodePid {c : Cfg P} {pid : Byte} {i : Instr} (h : decodePid c pid = .request i) :
    i.wf c = true ∧ encode i = wordOf 0x02 0x01 pid ∧ rowMask i = 0xFFFFFF := by
  obtain ⟨k, hpid, hd⟩ | ⟨-, ⟨k, hk, hd⟩ | ⟨-, hd⟩⟩ := decodePid_cases c pid
  · obtain rfl : supInstr k pid = i := by rw [hd] at h; cases h; rfl
    exact ⟨by simp [wf_supInstr, hpid], encode_supInstr k pid, rowMask_supInstr k pid⟩
  · rw [hd] at h
    obtain ⟨w, p, rfl, rfl⟩ | ⟨rfl, rfl⟩ := liveRequest_eq_request h
    · exact ⟨by rw [wf_paramInstr, lists_iff]; exact ⟨w, hk⟩, encode_paramInstr p pid, rowMask_paramInstr p pid⟩
    · exact ⟨(listsLambda_iff c pid).mpr hk, rfl, rfl⟩
  · rw [hd] at h
    cases h

theorem decodePid_lists {c : Cfg P} (h : c.pidsOk = true) {pid : Byte} {p : Param} (hl : c.lists pid p = true) :
    decodePid c pid = .request (paramInstr p pid) := by
  obtain ⟨w, hk⟩ := (lists_iff c pid p).mp hl
  rw [decodePid_handler h hk, liveRequest]

theorem decodePid_lambda {c : Cfg P} (h : c.pidsOk = true) {pid : Byte} (hk : c.handler pid = some .lambda) :
    decodePid c pid = .request (.lambda pid) := by
  rw [decodePid_handler h hk, liveRequest]

/-! ## The service select -/

theorem decodeWord_of_service_03 (c : Cfg P) {w : BitVec 24} (h : svcField w = 0x03) :
    decodeWord c w = .request .dtcs := by
  rw [decodeWord, h]; rfl

theorem decodeWord_of_service_07 (c : Cfg P) {w : BitVec 24} (h : svcField w = 0x07) :
    decodeWord c w = .request .dtcp := by
  rw [decodeWord, h]; rfl

theorem decodeWord_of_service_0A (c : Cfg P) {w : BitVec 24} (h : svcField w = 0x0A) :
    decodeWord c w = .request .dtcm := by
  rw [decodeWord, h]; rfl

/-- What the service select can do (40_dispatch.md R112, R113, R116, R117). -/
theorem decodeWord_cases (c : Cfg P) (w : BitVec 24) :
    (w = wordOf 0x02 0x01 (pidField w) ∧ decodeWord c w = decodePid c (pidField w)) ∨
    (svcField w = 0x01 ∧ lenField w ≠ 0x02 ∧ decodeWord c w = .drop .badLength) ∨
    (svcField w = 0x03 ∧ decodeWord c w = .request .dtcs) ∨
    (svcField w = 0x07 ∧ decodeWord c w = .request .dtcp) ∨
    (svcField w = 0x0A ∧ decodeWord c w = .request .dtcm) ∨
    ((svcField w ≠ 0x01 ∧ svcField w ≠ 0x03 ∧ svcField w ≠ 0x07 ∧ svcField w ≠ 0x0A) ∧
      decodeWord c w = .drop .unknownService) := by
  by_cases h1 : svcField w = 0x01
  · by_cases hl : lenField w = 0x02
    · exact .inl ⟨by rw [← hl, ← h1, wordOf_fields], decodeWord_of_length_eq c h1 hl⟩
    · exact .inr (.inl ⟨h1, hl, decodeWord_of_length_ne c h1 hl⟩)
  by_cases h3 : svcField w = 0x03
  · exact .inr (.inr (.inl ⟨h3, decodeWord_of_service_03 c h3⟩))
  by_cases h7 : svcField w = 0x07
  · exact .inr (.inr (.inr (.inl ⟨h7, decodeWord_of_service_07 c h7⟩)))
  by_cases hA : svcField w = 0x0A
  · exact .inr (.inr (.inr (.inr (.inl ⟨hA, decodeWord_of_service_0A c hA⟩))))
  · exact .inr (.inr (.inr (.inr (.inr ⟨⟨h1, h3, h7, hA⟩, decodeWord_of_service_unknown c h1 h3 h7 hA⟩))))

/-- A word that decodes to a request is in the row of that request, in any configuration. -/
theorem row_of_decodeWord {c : Cfg P} {w : BitVec 24} {i : Instr} (h : decodeWord c w = .request i) :
    i.wf c = true ∧ w &&& rowMask i = rowMatch i := by
  obtain ⟨hw, hd⟩ | ⟨-, -, hd⟩ | ⟨hs, hd⟩ | ⟨hs, hd⟩ | ⟨hs, hd⟩ | ⟨-, hd⟩ := decodeWord_cases c w <;> rw [hd] at h
  · obtain ⟨hwf, henc, hmask⟩ := wf_of_decodePid h
    exact ⟨hwf, (rowMatch_currentData_iff hmask w).mpr (hw.trans henc.symm)⟩
  · cases h
  · cases h
    exact ⟨rfl, (rowMatch_troubleCode_iff rfl w).mpr hs⟩
  · cases h
    exact ⟨rfl, (rowMatch_troubleCode_iff rfl w).mpr hs⟩
  · cases h
    exact ⟨rfl, (rowMatch_troubleCode_iff rfl w).mpr hs⟩
  · cases h

/-- A word in the row of a well-formed request decodes to it. -/
theorem decodeWord_of_row {c : Cfg P} (hc : c.pidsOk = true) {w : BitVec 24} {i : Instr} (hwf : i.wf c = true)
    (hrow : w &&& rowMask i = rowMatch i) : decodeWord c w = .request i := by
  obtain ⟨p, pid, rfl⟩ | ⟨k, pid, rfl⟩ | ⟨pid, rfl⟩ | rfl | rfl | rfl := Machine.instr_cases i
  · rw [(rowMatch_currentData_iff (rowMask_paramInstr p pid) w).mp hrow, encode_paramInstr, decodeWord_currentData]
    exact decodePid_lists hc (wf_paramInstr c p pid ▸ hwf)
  · obtain rfl : pid = (c.window k).qpid := by simpa [wf_supInstr] using hwf
    rw [(rowMatch_currentData_iff (rowMask_supInstr k _) w).mp hrow, encode_supInstr, decodeWord_currentData]
    exact decodePid_qpid hc k
  · rw [(rowMatch_currentData_iff rfl w).mp hrow, encode_lambda, decodeWord_currentData]
    exact decodePid_lambda hc ((listsLambda_iff c pid).mp hwf)
  · exact decodeWord_of_service_03 c ((rowMatch_troubleCode_iff rfl w).mp hrow)
  · exact decodeWord_of_service_07 c ((rowMatch_troubleCode_iff rfl w).mp hrow)
  · exact decodeWord_of_service_0A c ((rowMatch_troubleCode_iff rfl w).mp hrow)

theorem decodeWord_eq_request_iff {c : Cfg P} (hc : c.runnable = true) (w : BitVec 24) (i : Instr) :
    decodeWord c w = .request i ↔ i.wf c = true ∧ w &&& rowMask i = rowMatch i :=
  ⟨row_of_decodeWord, fun ⟨hwf, hrow⟩ => decodeWord_of_row (runnable_pidsOk hc) hwf hrow⟩

theorem decodeWord_encode {c : Cfg P} (hc : c.runnable = true) {i : Instr} (hwf : i.wf c = true) :
    decodeWord c (encode i) = .request i :=
  (decodeWord_eq_request_iff hc _ i).mpr ⟨hwf, rfl⟩

/-- Settles O24: the service select and the PID select, inverted and run forward. -/
theorem wordDecodesExactlyWhenItsRowMatches : Obligations.WordDecodesExactlyWhenItsRowMatches := by
  unfold Obligations.WordDecodesExactlyWhenItsRowMatches
  exact fun c w i hc => decodeWord_eq_request_iff hc w i

/-- Settles O23: an encoded request is the word of its own row. -/
theorem decodeOfEncodeIsTheInstruction : Obligations.DecodeOfEncodeIsTheInstruction := by
  unfold Obligations.DecodeOfEncodeIsTheInstruction
  exact fun c i hc hwf => decodeWord_encode hc hwf

/-- Settles O25: a word in both rows decodes to both requests. -/
theorem noWordMatchesTwoRows : Obligations.NoWordMatchesTwoRows := by
  unfold Obligations.NoWordMatchesTwoRows
  intro c w i j hc hi hj hwi hwj
  have decodes_i := (decodeWord_eq_request_iff hc w i).mpr ⟨hi, hwi⟩
  have decodes_j := (decodeWord_eq_request_iff hc w j).mpr ⟨hj, hwj⟩
  rw [decodes_i] at decodes_j
  cases decodes_j
  rfl

/-- Settles O22, by running the decoder on the seven words of the default map. -/
theorem opcodeMapWordsDecode : Obligations.OpcodeMapWordsDecode := by
  unfold Obligations.OpcodeMapWordsDecode
  decide

/-! ## Frames in no row -/

/-- The PID select drops a PID exactly when it is no query PID and no table lists it with a handler. -/
theorem decodePid_drop_iff (c : Cfg P) (pid : Byte) :
    (∃ d, decodePid c pid = .drop d) ↔
      (∀ k, pid ≠ (c.window k).qpid) ∧ ∀ d ∈ c.descriptors, d.kind ≠ .bare → d.id ≠ pid := by
  rw [← handler_none_iff]
  obtain ⟨k, hpid, hd⟩ | ⟨hq, ⟨k, hk, hd⟩ | ⟨hk, hd⟩⟩ := decodePid_cases c pid
  · simp only [hd, reduceCtorEq, exists_false, false_iff]
    exact fun ⟨hq, _⟩ => hq k hpid
  · have hserved : ∀ d, liveRequest pid k ≠ .drop d := by
      have hbare := handler_ne_bare hk
      rcases k with ⟨w, p | e⟩ | _ | _ <;> simp [liveRequest] at hbare ⊢
    simp [hd, hk, hserved]
  · exact ⟨fun _ => ⟨hq, hk⟩, fun _ => ⟨_, hd⟩⟩

/-- The decoder drops a word exactly when its service, its declared length or its PID is one the block does not serve
(30_encoding.md R91). -/
theorem decodeWord_drop_iff (c : Cfg P) (w : BitVec 24) :
    (∃ d, decodeWord c w = .drop d) ↔
      (svcField w ≠ 0x01 ∧ svcField w ≠ 0x03 ∧ svcField w ≠ 0x07 ∧ svcField w ≠ 0x0A) ∨
      (svcField w = 0x01 ∧ lenField w ≠ 0x02) ∨
      (svcField w = 0x01 ∧ lenField w = 0x02 ∧ (∀ k, pidField w ≠ (c.window k).qpid) ∧
        ∀ d ∈ c.descriptors, d.kind ≠ .bare → d.id ≠ pidField w) := by
  obtain ⟨hw, hd⟩ | ⟨hs, hl, hd⟩ | ⟨hs, hd⟩ | ⟨hs, hd⟩ | ⟨hs, hd⟩ | ⟨hs, hd⟩ := decodeWord_cases c w
  · have hs : svcField w = 0x01 := by rw [hw, svcField_wordOf]
    have hl : lenField w = 0x02 := by rw [hw, lenField_wordOf]
    rw [hd, decodePid_drop_iff]
    simp [hs, hl]
  · exact ⟨fun _ => .inr (.inl ⟨hs, hl⟩), fun _ => ⟨_, hd⟩⟩
  · simp [hd, hs]
  · simp [hd, hs]
  · simp [hd, hs]
  · exact ⟨fun _ => .inl hs, fun _ => ⟨_, hd⟩⟩

/-- Settles O14: the id filter, then the classes of the request word. -/
theorem frameIsDroppedExactlyInTheFourClasses : Obligations.FrameIsDroppedExactlyInTheFourClasses := by
  unfold Obligations.FrameIsDroppedExactlyInTheFourClasses
  intro c rx
  by_cases hid : rx.id = c.reqId
  · rw [decodeFrame_of_id_eq hid, decodeWord_drop_iff]
    simp only [svcField_word, lenField_word, pidField_word, hid, ne_eq, not_true, false_or]
  · rw [decodeFrame_of_id_ne hid]
    exact ⟨fun _ => .inl hid, fun _ => ⟨_, rfl⟩⟩

/-- Settles O12: the PID select drops such a PID, and a drop has no effect. -/
theorem unrecognisedPidIsIgnored : Obligations.UnrecognisedPidIsIgnored := by
  unfold Obligations.UnrecognisedPidIsIgnored
  intro s env rx rest hc hin hsvc hlen hquery hlisted
  obtain ⟨d, hd⟩ := (decodePid_drop_iff s.cfg rx.data[2]).mpr ⟨hquery, hlisted⟩
  refine Machine.step_of_word_drop (d := d) hc hin ?_
  rw [decodeWord_of_length_eq s.cfg (by simpa using hsvc) (by simpa using hlen), pidField_word, hd]

end Sys2Proof
end

section
/-! SUPPORT. Rounding, the generic encoder and the lambda conversion in every ordered field with a floor (00_scope.md R6,
R8; 41_value_encoder.md R140, R153, R157, R158). -/

namespace Sys2Proof.Machine

/-! ## The encoder clamps whatever it is given -/

section Encoder

variable {K : Type} (f : K → Int) (w : Nat) (q : K)

theorem zero_le_top : (0 : Int) ≤ 2 ^ (8 * w) - 1 := by
  have := one_le_pow₀ (show (1 : Int) ≤ 2 by decide) (n := 8 * w)
  omega

theorem natCast_top : ((2 ^ (8 * w) - 1 : Nat) : Int) = 2 ^ (8 * w) - 1 := by
  rw [Nat.cast_sub Nat.one_le_two_pow]
  norm_num

/-- The encoded value as an integer: a clamp below 0 leaves nothing negative. -/
theorem natCast_encodeWith : (encodeWith f w q : Int) = clamp 0 (2 ^ (8 * w) - 1) (f q) :=
  Int.toNat_of_nonneg (clamp_mem (zero_le_top w) (f q)).1

theorem encodeWith_le_top : encodeWith f w q ≤ 2 ^ (8 * w) - 1 := by
  have := (clamp_mem (zero_le_top w) (f q)).2
  zify
  rwa [natCast_encodeWith, natCast_top]

theorem encodeWith_mono {f : K → Int} {q r : K} (h : f q ≤ f r) : encodeWith f w q ≤ encodeWith f w r :=
  Int.toNat_le_toNat (clamp_mono (zero_le_top w) h)

theorem encodeWith_of_eq {f : K → Int} {w n : Nat} {q : K} (h : f q = n) (hn : n ≤ 2 ^ (8 * w) - 1) :
    encodeWith f w q = n := by
  have hn' : (n : Int) ≤ 2 ^ (8 * w) - 1 := by rw [← natCast_top]; exact_mod_cast hn
  zify
  rw [natCast_encodeWith, h, clamp_of_mem n.cast_nonneg hn']

theorem encodeWith_eq_top_iff {w : Nat} (hw : 1 ≤ w) :
    encodeWith f w q = 2 ^ (8 * w) - 1 ↔ (2 : Int) ^ (8 * w) - 1 ≤ f q := by
  have htop : (1 : Int) < 2 ^ (8 * w) := one_lt_pow₀ (by decide) (by omega)
  rw [← Int.natCast_inj, natCast_encodeWith, natCast_top, clamp]
  split_ifs <;> omega

theorem encodeWith_eq_zero_iff {w : Nat} (hw : 1 ≤ w) : encodeWith f w q = 0 ↔ f q ≤ 0 := by
  have htop : (1 : Int) < 2 ^ (8 * w) := one_lt_pow₀ (by decide) (by omega)
  rw [← Int.natCast_inj, natCast_encodeWith, clamp]
  split_ifs <;> omega

end Encoder

/-- Settles O38: the clamp's upper bound. -/
theorem encodedValueFitsItsWidth : Obligations.EncodedValueFitsItsWidth := by
  unfold Obligations.EncodedValueFitsItsWidth
  exact ⟨fun t w q => encodeWith_le_top (rnd t) w q, fun _ f w q => encodeWith_le_top f w q⟩

/-! ## Rounding to nearest -/

section Nearest

variable {K : Type} [Field K] [LinearOrder K] [IsStrictOrderedRing K]

/-- A function to a nearest integer is monotone. -/
theorem mono_of_near {f : K → Int} (hf : ∀ x : K, |(f x : K) - x| ≤ 1 / 2) {q r : K} (h : q ≤ r) : f q ≤ f r := by
  obtain rfl | hlt := h.eq_or_lt
  · exact le_rfl
  have hq := (abs_le.mp (hf q)).2
  have hr := (abs_le.mp (hf r)).1
  have hlt' : (f q : K) < ((f r + 1 : Int) : K) := by push_cast; linarith
  exact Int.lt_add_one_iff.mp (Int.cast_lt.mp hlt')

/-- A function to a nearest integer leaves integers alone. -/
theorem intCast_of_near {f : K → Int} (hf : ∀ x : K, |(f x : K) - x| ≤ 1 / 2) (n : Int) : f (n : K) = n := by
  obtain ⟨hlow, hhigh⟩ := abs_le.mp (hf n)
  have h1 : (n : K) < ((f n + 1 : Int) : K) := by push_cast; linarith
  have h2 : (f n : K) < ((n + 1 : Int) : K) := by push_cast; linarith
  have h1 := Int.cast_lt.mp h1
  have h2 := Int.cast_lt.mp h2
  omega

theorem natCast_of_near {f : K → Int} (hf : ∀ x : K, |(f x : K) - x| ≤ 1 / 2) (n : Nat) : f (n : K) = n := by
  rw [← Int.cast_natCast, intCast_of_near hf]

variable [FloorRing K]

theorem abs_nearest_sub_le (up : Bool) (q : K) : |(nearest up q : K) - q| ≤ 1 / 2 := by
  have h1 := Int.floor_le q
  have h2 := Int.lt_floor_add_one q
  rw [abs_le]
  obtain ⟨h, e⟩ | ⟨h, e⟩ | ⟨h, e⟩ := nearest_cases up q <;> rw [e]
  · constructor <;> linarith
  · push_cast
    constructor <;> linarith
  · cases up
    · simp only [Bool.false_eq_true, if_false]
      constructor <;> linarith
    · simp only [if_true]
      push_cast
      constructor <;> linarith

/-- `rndAway` lies between the half below and the half above, on the side of zero strictly (00_scope.md R8). -/
theorem rndAway_cases (q : K) :
    (0 ≤ q ∧ 0 ≤ rndAway q ∧ q - 1 / 2 < rndAway q ∧ (rndAway q : K) ≤ q + 1 / 2) ∨
    (q < 0 ∧ rndAway q ≤ 0 ∧ q - 1 / 2 ≤ rndAway q ∧ (rndAway q : K) < q + 1 / 2) := by
  by_cases h : 0 ≤ q
  · have e : rndAway q = ⌊q + 1 / 2⌋ := if_pos h
    have h1 := Int.floor_le (q + 1 / 2)
    have h2 := Int.lt_floor_add_one (q + 1 / 2)
    rw [e]
    exact .inl ⟨h, Int.floor_nonneg.mpr (by linarith), by linarith, h1⟩
  · have e : rndAway q = -⌊-q + 1 / 2⌋ := if_neg h
    have h1 := Int.floor_le (-q + 1 / 2)
    have h2 := Int.lt_floor_add_one (-q + 1 / 2)
    have h0 : 0 ≤ ⌊-q + 1 / 2⌋ := Int.floor_nonneg.mpr (by linarith)
    rw [e]
    push_cast
    exact .inr ⟨not_le.mp h, by omega, by linarith, by linarith⟩

theorem abs_rndAway_sub_le (q : K) : |(rndAway q : K) - q| ≤ 1 / 2 := by
  rw [abs_le]
  obtain ⟨-, -, h1, h2⟩ | ⟨-, -, h1, h2⟩ := rndAway_cases q <;> constructor <;> linarith

/-- A tie goes away from zero (decision D14). -/
theorem abs_lt_abs_rndAway {q : K} (h : |(rndAway q : K) - q| = 1 / 2) : |q| < |(rndAway q : K)| := by
  obtain ⟨hq, hr, h1, h2⟩ | ⟨hq, hr, h1, h2⟩ := rndAway_cases q
  · have hr' : (0 : K) ≤ rndAway q := by exact_mod_cast hr
    rw [abs_of_nonneg hq, abs_of_nonneg hr']
    rcases (abs_eq (by norm_num)).mp h with e | e <;> linarith
  · have hr' : (rndAway q : K) ≤ 0 := by exact_mod_cast hr
    rw [abs_of_neg hq, abs_of_nonpos hr']
    rcases (abs_eq (by norm_num)).mp h with e | e <;> linarith

/-- Where rounding away from zero reaches a positive integer. -/
theorem le_rndAway_iff {n : Int} (hn : 1 ≤ n) (q : K) : n ≤ rndAway q ↔ (n : K) - 1 / 2 ≤ q := by
  have hn' : (1 : K) ≤ n := by exact_mod_cast hn
  obtain ⟨-, -, h1, h2⟩ | ⟨hq, hr, -, -⟩ := rndAway_cases q
  · constructor
    · intro h
      have : (n : K) ≤ rndAway q := by exact_mod_cast h
      linarith
    · intro h
      have : (n : K) < ((rndAway q + 1 : Int) : K) := by push_cast; linarith
      exact Int.lt_add_one_iff.mp (Int.cast_lt.mp this)
  · constructor
    · intro h
      omega
    · intro h
      linarith

/-- Every tie rule but an arbitrary `rnd` rounds to nearest (41_value_encoder.md R140). -/
theorem abs_rnd_sub_le {t : TieRule} (ht : t.isNearest = true) (q : K) : |(rnd t q : K) - q| ≤ 1 / 2 := by
  cases t with
  | awayFromZero => exact abs_rndAway_sub_le q
  | toEven => exact abs_nearest_sub_le _ q
  | unspecified => exact abs_nearest_sub_le _ q
  | custom n => cases ht

end Nearest

/-- Settles O42: the distance of each tie rule, the direction of the default one, and `exists_nearest_of_near`. -/
theorem roundingGivesTheNearestInteger : Obligations.RoundingGivesTheNearestInteger := by
  unfold Obligations.RoundingGivesTheNearestInteger
  intro K _ _ _ _
  refine ⟨fun t q ht => abs_rnd_sub_le ht q, fun q h => abs_lt_abs_rndAway h, fun q n => ?_⟩
  constructor
  · exact exists_nearest_of_near q n
  · rintro ⟨up, rfl⟩
    exact abs_nearest_sub_le up q

/-- Settles O39: rounding to nearest is monotone, and so is the clamp. -/
theorem encoderIsMonotone : Obligations.EncoderIsMonotone := by
  unfold Obligations.EncoderIsMonotone
  exact ⟨fun t w q r ht h => encodeWith_mono w (mono_of_near (abs_rnd_sub_le ht) h),
    fun K _ _ _ f w q r hf h => encodeWith_mono w (mono_of_near hf h)⟩

/-- Settles O40: an integer is its own nearest integer, and in range the clamp leaves it. -/
theorem encoderIsExactOnIntegersInRange : Obligations.EncoderIsExactOnIntegersInRange := by
  unfold Obligations.EncoderIsExactOnIntegersInRange
  exact ⟨fun t w n ht hn => encodeWith_of_eq (natCast_of_near (abs_rnd_sub_le ht) n) hn,
    fun K _ _ _ f w n hf hn => encodeWith_of_eq (natCast_of_near hf n) hn⟩

section Saturation

variable {K : Type} [Field K] [LinearOrder K] [IsStrictOrderedRing K] [FloorRing K] {w : Nat} (hw : 1 ≤ w) (q : K)
include hw

theorem encodeWith_rndAway_eq_top_iff :
    encodeWith rndAway w q = 2 ^ (8 * w) - 1 ↔ (2 : K) ^ (8 * w) - 3 / 2 ≤ q := by
  have htop : (1 : Int) < 2 ^ (8 * w) := one_lt_pow₀ (by decide) (by omega)
  have hhalf : (((2 : Int) ^ (8 * w) - 1 : Int) : K) - 1 / 2 = (2 : K) ^ (8 * w) - 3 / 2 := by push_cast; ring
  rw [encodeWith_eq_top_iff _ _ hw, le_rndAway_iff (by omega), hhalf]

theorem encodeWith_rndAway_eq_zero_iff : encodeWith rndAway w q = 0 ↔ q < 1 / 2 := by
  have hhalf : ((1 : Int) : K) - 1 / 2 = 1 / 2 := by norm_num
  rw [encodeWith_eq_zero_iff _ _ hw, ← not_le, ← hhalf, ← le_rndAway_iff le_rfl, not_le,
    ← Int.lt_add_one_iff, zero_add]

end Saturation

/-- Settles O41: where rounding reaches the top of the range and where it reaches 1. -/
theorem encoderSaturatesAtBothEnds : Obligations.EncoderSaturatesAtBothEnds := by
  unfold Obligations.EncoderSaturatesAtBothEnds
  exact ⟨fun w q hw => ⟨encodeWith_rndAway_eq_top_iff hw q, encodeWith_rndAway_eq_zero_iff hw q⟩,
    fun K _ _ _ _ w q hw => ⟨encodeWith_rndAway_eq_top_iff hw q, encodeWith_rndAway_eq_zero_iff hw q⟩⟩

/-! ## The lambda conversion -/

section Lambda

variable {K : Type} [Field K] [LinearOrder K] [IsStrictOrderedRing K] [FloorRing K]

/-- Lambda's clamped and scaled value (41_value_encoder.md R153). -/
def lambdaProduct (l : K) : K := clamp 0 lambdaMax l * 32768

theorem lambdaProduct_nonneg (l : K) : 0 ≤ lambdaProduct l := by
  have h0 : (0 : K) ≤ lambdaMax := by norm_num [lambdaMax]
  exact mul_nonneg (clamp_mem h0 l).1 (by norm_num)

theorem lambdaProduct_le (l : K) : lambdaProduct l ≤ 65208 + 8 / 25 := by
  have h0 : (0 : K) ≤ lambdaMax := by norm_num [lambdaMax]
  have h := (clamp_mem h0 l).2
  unfold lambdaMax at h
  unfold lambdaProduct lambdaMax
  linarith

/-- A conversion gives 16 bits: a neighbour of a product below 65209, or an arbitrary 16-bit quantity. -/
theorem lamq_lambdaProduct_lt (r : LambdaRule) (l : K) : lamq r (lambdaProduct l) < 65536 := by
  have hx0 := lambdaProduct_nonneg l
  have hx1 := lambdaProduct_le l
  have hfloor : ⌊lambdaProduct l⌋ < 65209 := Int.floor_lt.mpr (by push_cast; linarith)
  cases r with
  | floor => simp only [lamq]; omega
  | nearest =>
    have hnear := (abs_le.mp (abs_rndAway_sub_le (lambdaProduct l))).2
    have : (rndAway (lambdaProduct l) : K) < ((65209 : Int) : K) := by push_cast; linarith
    have := Int.cast_lt.mp this
    simp only [lamq]; omega
  | unspecified => simp only [lamq]; split_ifs <;> omega
  | custom n => exact (Config.freeLamq n (lambdaProduct l)).isLt

theorem lambdaQ16_toNat (r : LambdaRule) (l : K) : (lambdaQ16 r l).toNat = lamq r (lambdaProduct l) :=
  Nat.mod_eq_of_lt (lamq_lambdaProduct_lt r l)

/-- A conversion to a neighbour is exact on integers. -/
theorem lamq_natCast {r : LambdaRule} (hr : r.isNeighbour = true) (n : Nat) : lamq r (n : K) = n := by
  cases r with
  | floor => simp [lamq]
  | nearest => simp [lamq, natCast_of_near abs_rndAway_sub_le n]
  | unspecified => simp [lamq]
  | custom n => cases hr

/-- In range the clamp leaves a quantity that scales to an integer. -/
theorem lambdaProduct_natCast_div {n : Nat} (hn : n ≤ 65208) : lambdaProduct ((n : K) / 32768) = n := by
  have hn' : (n : K) ≤ 65208 := by exact_mod_cast hn
  have h0 : (0 : K) ≤ (n : K) / 32768 := by positivity
  have h1 : (n : K) / 32768 ≤ lambdaMax := by
    rw [lambdaMax, div_le_div_iff₀ (by norm_num) (by norm_num)]
    linarith
  rw [lambdaProduct, clamp_of_mem h0 h1, div_mul_cancel₀ _ (by norm_num)]

theorem lambdaQ16_floor_le (l : K) : (lambdaQ16 .floor l).toNat ≤ 65208 := by
  have hfloor : ⌊lambdaProduct l⌋ < 65209 :=
    Int.floor_lt.mpr (by have := lambdaProduct_le l; push_cast; linarith)
  rw [lambdaQ16_toNat, lamq]
  omega

theorem lambdaQ16_floor_of_max_le {l : K} (h : 199 / 100 ≤ l) : (lambdaQ16 .floor l).toNat = 65208 := by
  have hclamp : clamp 0 lambdaMax l = lambdaMax := by
    unfold clamp lambdaMax
    split_ifs with h1 h2 <;> linarith
  have hfloor : ⌊lambdaProduct l⌋ = 65208 := by
    rw [Int.floor_eq_iff, lambdaProduct, hclamp, lambdaMax]
    norm_num
  rw [lambdaQ16_toNat, lamq, hfloor]
  rfl

/-- The clamped product is below 1 exactly when the quantity scales below 1. -/
theorem lambdaProduct_lt_one_iff (l : K) : lambdaProduct l < 1 ↔ l < 1 / 32768 := by
  unfold lambdaProduct clamp lambdaMax
  split_ifs with h1 h2
  · exact ⟨fun _ => h1.trans (by norm_num), fun _ => by norm_num⟩
  · constructor <;> intro h <;> linarith
  · rw [lt_div_iff₀ (by norm_num)]

theorem lambdaQ16_floor_eq_zero_iff (l : K) : (lambdaQ16 .floor l).toNat = 0 ↔ l < 1 / 32768 := by
  rw [lambdaQ16_toNat, lamq, Int.toNat_eq_zero, ← lambdaProduct_lt_one_iff, ← Int.lt_add_one_iff, Int.floor_lt]
  norm_num

end Lambda

/-- Settles O34: the bounds of the clamped product, and exactness on the integers among them. -/
theorem lambdaQuantityStaysBelow65209 : Obligations.LambdaQuantityStaysBelow65209 := by
  unfold Obligations.LambdaQuantityStaysBelow65209
  intro K _ _ _ _
  refine ⟨lambdaQ16_floor_le, fun l => lambdaQ16_floor_of_max_le, lambdaQ16_floor_eq_zero_iff, fun r n hr hn => ?_⟩
  rw [lambdaQ16_toNat, lambdaProduct_natCast_div hn, lamq_natCast hr]

/-! ## Every ordered field gives the bytes the rationals give -/

section Rationals

variable {K : Type} [Field K] [LinearOrder K] [IsStrictOrderedRing K]

theorem foldAngle_ratCast (v : Phys) : foldAngle (v : K) = (foldAngle v : Phys) := by
  have hfold : (v : K) > 360 ↔ v > 360 := by
    have := Rat.cast_lt (K := K) (p := 360) (q := v)
    push_cast at this
    exact this
  unfold foldAngle
  by_cases h : v > 360
  · rw [if_pos h, if_pos (hfold.mpr h)]; push_cast; rfl
  · rw [if_neg h, if_neg (mt hfold.mp h)]

theorem scaleOf_ratCast (p : Param) (v : Phys) : scaleOf p (v : K) = (scaleOf p v : Phys) := by
  cases p <;> simp [scaleOf, foldAngle_ratCast]

/-- Every quantity is some parameter value scaled; an angle above 360 comes from one a revolution pair further on. -/
theorem scaleOf_surjective (p : Param) (y : K) : ∃ v : K, scaleOf p v = y := by
  cases p with
  | load | tps | eth => exact ⟨y * 100 / 255, by simp only [scaleOf]; field_simp⟩
  | ect | iat | oilt => exact ⟨y - 40, by simp [scaleOf]⟩
  | stft1 | stft2 => exact ⟨y / 128, by simp only [scaleOf]; field_simp⟩
  | map | vss => exact ⟨y, rfl⟩
  | rpm => exact ⟨y / 4, by simp only [scaleOf]; field_simp⟩
  | vbat => exact ⟨y / 1000, by simp only [scaleOf]; field_simp⟩
  | tadv =>
    by_cases h : y / 2 - 64 > 360
    · have hfold : foldAngle (y / 2 - 64 + 720) = y / 2 - 64 + 720 - 720 := if_pos (by linarith)
      exact ⟨y / 2 - 64 + 720, by simp only [scaleOf, hfold]; ring⟩
    · have hfold : foldAngle (y / 2 - 64) = y / 2 - 64 := if_neg h
      exact ⟨y / 2 - 64, by simp only [scaleOf, hfold]; ring⟩

variable [FloorRing K]

theorem rndAway_ratCast (v : Phys) : rndAway (v : K) = rndAway v := by
  have hup : (v : K) + 1 / 2 = ((v + 1 / 2 : Phys) : K) := by push_cast; rfl
  have hdown : -(v : K) + 1 / 2 = ((-v + 1 / 2 : Phys) : K) := by push_cast; rfl
  simp only [rndAway, ge_iff_le, Rat.cast_nonneg, hup, hdown, Rat.floor_cast]

theorem lambdaProduct_ratCast (v : Phys) : lambdaProduct (v : K) = (lambdaProduct v : Phys) := by
  have hmax : (lambdaMax : K) = ((lambdaMax : Phys) : K) := by norm_num [lambdaMax]
  simp only [lambdaProduct, clamp, gt_iff_lt, hmax, Rat.cast_lt_zero, Rat.cast_lt]
  split_ifs <;> push_cast <;> rfl

theorem lambdaQ16_floor_ratCast (v : Phys) : lambdaQ16 .floor (v : K) = lambdaQ16 .floor v := by
  refine BitVec.eq_of_toNat_eq ?_
  rw [lambdaQ16_toNat, lambdaQ16_toNat, lambdaProduct_ratCast, lamq, lamq, Rat.floor_cast]

/-- Every quantity of the field gets the lambda quantity of a rational one: of the quantity it is answered as. -/
theorem exists_rat_lambdaQ16_eq (x : K) : ∃ v : Phys, lambdaQ16 .floor x = lambdaQ16 .floor v := by
  refine ⟨((lambdaQ16 .floor x).toNat : Phys) / 32768, BitVec.eq_of_toNat_eq ?_⟩
  rw [lambdaQ16_toNat .floor (_ / _), lambdaProduct_natCast_div (lambdaQ16_floor_le x), lamq_natCast rfl]

end Rationals

section RationalRepresentatives

variable {K L : Type} [Field K] [LinearOrder K] [FloorRing K] [Field L] [LinearOrder L] [FloorRing L]

/-- An encoded value depends on the rounded quantity alone. -/
theorem encodeValue_congr {t : TieRule} {x : K} {y : L}
    (h : rnd t x = rnd t y) (w : Nat) : encodeValue t w x = encodeValue t w y := by
  rw [encodeValue, encodeValue, encodeWith, encodeWith, h]

/-- Every quantity of the field gets the bytes of a rational one: of the integer it rounds to. -/
theorem exists_rat_encodeValue_eq (p : Param) (x : K) : ∃ v : Phys, ∀ w : Nat,
    encodeValue .awayFromZero w (scaleOf p x) = encodeValue .awayFromZero w (scaleOf p v) := by
  obtain ⟨v, hv⟩ := scaleOf_surjective p ((rndAway (scaleOf p x) : Int) : Phys)
  refine ⟨v, encodeValue_congr ?_⟩
  rw [hv]
  exact (intCast_of_near abs_rndAway_sub_le (rndAway (scaleOf p x))).symm

end RationalRepresentatives

/-- Settles O44: casting commutes with scaling and rounding, and a quantity may be replaced by what it rounds to. -/
theorem everyOrderedFieldGivesTheSameBytes : Obligations.EveryOrderedFieldGivesTheSameBytes := by
  unfold Obligations.EveryOrderedFieldGivesTheSameBytes
  intro K _ _ _ _
  refine ⟨fun p v => encodeValue_congr ?_, exists_rat_encodeValue_eq, lambdaQ16_floor_ratCast,
    exists_rat_lambdaQ16_eq⟩
  rw [scaleOf_ratCast]
  exact rndAway_ratCast (scaleOf p v)

end Sys2Proof.Machine
end

section
/-! SUPPORT. What each request in hand answers, at any types of quantities and buses (41_value_encoder.md R142, R153, R159;
42_pid_bitmask.md R181; 43_dtc.md R202 to R204): one lemma for each shape of meaning, `State.answered` or the fatal
assertion. -/

namespace Sys2Proof.Machine

variable {P B : Type} {s : State P B} {env : Env P} {rx : Frame B} {rest : List (Input P B)}

/-! ## A step by its input -/

section Step

variable [Field P] [LinearOrder P] [FloorRing P] [Inhabited P] (ex : Instr → State P B → Result P B)

theorem invoke_of_running (hc : s.cfg.runnable = true) (hh : s.halt = false) (hin : s.inbox = .request env rx :: rest) :
    invoke ex s = onNext retire (runDecoded ex (decodeFrame s.cfg rx) s) := by
  simp [invoke, hc, hin, handle, hh]

theorem invoke_of_reset (hc : s.cfg.runnable = true) (hin : s.inbox = .reset :: rest) :
    invoke ex s = .next (retire (resetBlock s)) := by
  simp [invoke, hc, hin]

theorem invoke_of_halted (hc : s.cfg.runnable = true) (hh : s.halt = true) (hin : s.inbox = .request env rx :: rest) :
    invoke ex s = .next (retire s) := by
  simp [invoke, hc, hin, handle, hh]

end Step

/-! ## Masks and trouble codes -/

/-- The meaningful bytes of a supported-PID response (42_pid_bitmask.md R181). -/
def maskBytes (pid : Byte) (m : BitVec 32) : List Byte :=
  [0x06, 0x41, pid, m.extractLsb' 24 8, m.extractLsb' 16 8, m.extractLsb' 8 8, m.extractLsb' 0 8]

theorem sendMask_answered (hin : s.inbox = .request env rx :: rest) {k : WindowIndex}
    (hk : (s.cfg.window k).covers = true) (pid : Byte) :
    sendMask k pid s = .next (s.answered [] rx.bus (maskBytes pid (maskOf (s.cfg.window k)))) := by
  rw [sendMask, withRequest_request hin, if_pos hk, respond_eq_answered _ _ _ (bytesBE_length 4 _).le, bytesBE_four]
  rfl

theorem sendMask_refused (hin : s.inbox = .request env rx :: rest) {k : WindowIndex}
    (hk : (s.cfg.window k).covers = false) (pid : Byte) : sendMask k pid s = .refused .illFormedConfig := by
  rw [sendMask, withRequest_request hin, hk]
  rfl

theorem execDtcs_answered (hin : s.inbox = .request env rx :: rest) :
    execDtcs s = .next { s.answered [.dtcSnapshot] rx.bus (codeResponseBytes 0x03 (capped s.cfg env.dtc)) with
      scr := some (capped s.cfg env.dtc) } := by
  rw [execDtcs_request hin, sendDtc_eq_answered, answered_refresh]

theorem execDtcp_answered (hin : s.inbox = .request env rx :: rest) :
    execDtcp s = .next (s.answered [] rx.bus [0x02, 0x47, 0x00]) := by
  rw [execDtcp, withRequest_request hin, sendDtc_eq_answered]
  rfl

theorem execDtcm_answered (hin : s.inbox = .request env rx :: rest) :
    execDtcm s = .next (s.answered [] rx.bus [0x02, 0x4A, 0x00]) := by
  rw [execDtcm, withRequest_request hin, sendDtc_eq_answered]
  rfl

/-- A capacity of at least 2 cuts no list below the two codes that are sent (10_state.md R33, clause 6). -/
theorem capped_take_two {c : Cfg P} (h : c.capOk = true) (l : List Code) : (capped c l).take 2 = l.take 2 := by
  unfold capped Cfg.capOk at *
  cases hcap : c.dtcCap with
  | none => rfl
  | some n =>
    simp only [hcap, decide_eq_true_eq] at h
    simp only [List.take_take, Nat.min_eq_left h]

/-- A trouble-code response is a function of the first two codes. -/
theorem codeResponseBytes_congr (svc : Byte) {l m : List Code} (h : l.take 2 = m.take 2) :
    codeResponseBytes svc l = codeResponseBytes svc m := by
  rw [codeResponseBytes, codeResponseBytes, h]

/-! ## Live data -/

section LiveData

variable [Field P] [LinearOrder P] [FloorRing P]

theorem sendValue_answered (bus : B) (pid : Byte) {w : Nat} (hw : w = 1 ∨ w = 2) (q : P) (s : State P B) :
    sendValue bus pid w q s = .next (s.answered [] bus (valueBytes w pid (encodeValue s.cfg.ties w q))) := by
  have hlen : (bytesBE w (encodeValue s.cfg.ties w q)).length ≤ 4 := by rw [bytesBE_length]; omega
  rw [sendValue, if_pos hw, respond_eq_answered _ _ _ hlen, responseBytes_value pid hw]

theorem sendValue_fatal (bus : B) (pid : Byte) {w : Nat} (h1 : w ≠ 1) (h2 : w ≠ 2) (q : P) (s : State P B) :
    sendValue bus pid w q s = .next { s with halt := true, fatal := some ⟨.fWidth, pid, w⟩ } := by
  rw [sendValue, if_neg (not_or.mpr ⟨h1, h2⟩)]
  rfl

/-- A request of a named parameter is one read and a `sendValue` at the width of its descriptor. -/
theorem execAt_paramInstr_request (hin : s.inbox = .request env rx :: rest) (p : Param) (pid : Byte) :
    execAt (paramInstr p pid) s = sendValue rx.bus pid (descriptorWidth s.cfg pid (ruleWidth p))
      (scaleOf p (env.value (ruleKey p))) (logRead (.value (ruleKey p)) s) := by
  rw [execAt_paramInstr, liveValue_request hin]

theorem execAt_paramInstr_answered (hin : s.inbox = .request env rx :: rest) {p : Param} {pid : Byte} {w : Nat}
    (hd : descriptorWidth s.cfg pid (ruleWidth p) = w) (hw : w = 1 ∨ w = 2) :
    execAt (paramInstr p pid) s = .next (s.answered [.value (ruleKey p)] rx.bus
      (valueBytes w pid (encodeValue s.cfg.ties w (scaleOf p (env.value (ruleKey p)))))) := by
  rw [execAt_paramInstr_request hin, hd, sendValue_answered _ _ hw, answered_logRead, logRead_cfg]

theorem execAt_paramInstr_fatal (hin : s.inbox = .request env rx :: rest) {p : Param} {pid : Byte} {w : Nat}
    (hd : descriptorWidth s.cfg pid (ruleWidth p) = w) (h1 : w ≠ 1) (h2 : w ≠ 2) :
    execAt (paramInstr p pid) s = .next { s with
      halt := true, fatal := some ⟨.fWidth, pid, w⟩, reads := s.reads ++ [.value (ruleKey p)] } := by
  rw [execAt_paramInstr_request hin, hd, sendValue_fatal _ _ h1 h2]
  rfl

/-- The meaningful bytes of a lambda response (41_value_encoder.md R153). -/
def lambdaBytes (pid : Byte) (q16 : BitVec 16) : List Byte := [0x06, 0x41, pid] ++ bytesBE 2 q16.toNat ++ [0x00, 0x00]

theorem execLambda_answered (hin : s.inbox = .request env rx :: rest) (pid : Byte) :
    execLambda pid s = .next (s.answered [.value (.sensor .lambda)] rx.bus
      (lambdaBytes pid (lambdaQ16 s.cfg.lamRule (env.value (.sensor .lambda))))) := by
  rw [execLambda, withRequest_request hin, readKey]
  simp only
  rw [respond_eq_answered _ _ _ (bytesBE_length 4 _).le, answered_logRead, bytesBE_lambdaField]
  rfl

variable [Inhabited P]

theorem execAdded_answered (hin : s.inbox = .request env rx :: rest) (pid : Byte) {w : Nat} (hw : w = 1 ∨ w = 2)
    (rule : Formula P) :
    execAdded pid w rule s = .next (s.answered (readOnce (formulaReads rule)) rx.bus
      (valueBytes w pid (encodeValue s.cfg.ties w (evalFormula env rule)))) := by
  rw [execAdded, withRequest_request hin, sendValue_answered _ _ hw, answered_logReads, List.append_nil, logReads_eq]

theorem execAdded_fatal (hin : s.inbox = .request env rx :: rest) (pid : Byte) {w : Nat} (h1 : w ≠ 1) (h2 : w ≠ 2)
    (rule : Formula P) :
    execAdded pid w rule s = .next { s with
      halt := true, fatal := some ⟨.fWidth, pid, w⟩, reads := s.reads ++ readOnce (formulaReads rule) } := by
  rw [execAdded, withRequest_request hin, sendValue_fatal _ _ h1 h2, logReads_eq]

end LiveData

@[simp] theorem readsOf_paramInstr (p : Param) (pid : Byte) : readsOf (paramInstr p pid) = [.value (ruleKey p)] := by
  cases p <;> rfl

@[simp] theorem readsOf_supInstr (k : WindowIndex) (pid : Byte) : readsOf (supInstr k pid) = [] := by
  cases k <;> rfl

/-- A current-data frame is decoded by its PID. -/
theorem decodeFrame_currentData {c : Cfg P} {pid : Byte} (hid : rx.id = c.reqId) (hw : rx.word = wordOf 0x02 0x01 pid) :
    decodeFrame c rx = decodePid c pid := by
  rw [decodeFrame_of_id_eq hid, hw, decodeWord_currentData]

/-! ## The rows of the opcode map at the default types -/

/-- The default registry lists each named parameter at the width its rule names (10_state.md R26). -/
theorem default_lists (p : Param) :
    ∃ pid, Cfg.default.pidOf p = some pid ∧ Cfg.default.handler pid = some (.value (ruleWidth p) (.named p)) := by
  cases p <;> exact ⟨_, rfl, rfl⟩

/-- Every named parameter's row, from its width, its key and its scaling rule. -/
theorem liveRow (p : Param) : LiveRow p (paramInstr p) (ruleWidth p) (ruleKey p) (scaleOf p) := by
  refine ⟨default_lists p, fun c pid hc hl => ?_, fun pid n s env rx rest hin hk hn => ?_⟩
  · rw [decodeWord_currentData, decodePid_lists (runnable_pidsOk hc) hl]
  · rw [exec_eq_execAt, execAt_paramInstr_answered hin (descriptorWidth_value hk _) hn]

/-- Settles O27: three rows of `liveRow`. -/
theorem percentRequestsAnswerTheirByte : Obligations.PercentRequestsAnswerTheirByte := by
  unfold Obligations.PercentRequestsAnswerTheirByte
  exact ⟨liveRow .load, liveRow .tps, liveRow .eth⟩

/-- Settles O28: three rows of `liveRow`. -/
theorem temperatureRequestsAnswerTheirByte : Obligations.TemperatureRequestsAnswerTheirByte := by
  unfold Obligations.TemperatureRequestsAnswerTheirByte
  exact ⟨liveRow .ect, liveRow .iat, liveRow .oilt⟩

/-- Settles O29: two rows of `liveRow`, one for each bank. -/
theorem fuelTrimRequestsAnswerTheirByte : Obligations.FuelTrimRequestsAnswerTheirByte := by
  unfold Obligations.FuelTrimRequestsAnswerTheirByte
  exact ⟨liveRow .stft1, liveRow .stft2⟩

/-- Settles O30: two rows of `liveRow`. -/
theorem identityRequestsAnswerTheirByte : Obligations.IdentityRequestsAnswerTheirByte := by
  unfold Obligations.IdentityRequestsAnswerTheirByte
  exact ⟨liveRow .map, liveRow .vss⟩

/-- Settles O31: two rows of `liveRow`, of width 2. -/
theorem twoByteRequestsAnswerBigEndian : Obligations.TwoByteRequestsAnswerBigEndian := by
  unfold Obligations.TwoByteRequestsAnswerBigEndian
  exact ⟨liveRow .rpm, liveRow .vbat⟩

/-- Settles O32: the row, and the two branches of the fold. -/
theorem timingRequestFoldsOnceAndAnswersItsByte : Obligations.TimingRequestFoldsOnceAndAnswersItsByte := by
  unfold Obligations.TimingRequestFoldsOnceAndAnswersItsByte
  exact ⟨liveRow .tadv, fun a => ⟨fun h => if_pos h, fun h => if_neg (not_lt.mpr h)⟩⟩

/-- Settles O33: the quantity fits its 16 bits, so its two bytes are those of the integer converted. -/
theorem lambdaRequestAnswersItsOwnFormat : Obligations.LambdaRequestAnswersItsOwnFormat := by
  unfold Obligations.LambdaRequestAnswersItsOwnFormat
  refine ⟨rfl, fun c pid hc hk => ?_, fun pid s env rx rest hin => ?_⟩
  · rw [decodeWord_currentData, decodePid_lambda (runnable_pidsOk hc) hk]
  · refine ⟨lamq_lambdaProduct_lt s.cfg.lamRule (env.value (.sensor .lambda)), ?_⟩
    have hlow (v : Nat) : BitVec.ofNat 8 v = BitVec.ofNat 8 (v % 256) := BitVec.eq_of_toNat_eq (by simp)
    rw [exec, execLambda_answered hin, lambdaBytes, lambdaQ16_toNat, bytesBE_two, hlow (lamq _ _)]
    rfl

/-- Settles O36: the width check comes after the reads and before any response. -/
theorem unsupportedWidthHaltsWithNoFrame : Obligations.UnsupportedWidthHaltsWithNoFrame := by
  unfold Obligations.UnsupportedWidthHaltsWithNoFrame
  refine ⟨fun p pid w s env rx rest hin hk h1 h2 => ?_, fun pid w rule s env rx rest hin h1 h2 => ?_⟩
  · rw [exec_eq_execAt, execAt_paramInstr_fatal hin (descriptorWidth_value hk _) h1 h2, readsOf_paramInstr]
  · exact ⟨readOnce (formulaReads rule), readOnce_nodup _, fun r => mem_readOnce r _, execAdded_fatal hin pid h1 h2 rule⟩

/-- Settles O35: each read of the rule once, then `sendValue`. -/
theorem addedDescriptorIsHandledLikeTheOthers : Obligations.AddedDescriptorIsHandledLikeTheOthers := by
  unfold Obligations.AddedDescriptorIsHandledLikeTheOthers
  intro pid w rule s env rx rest hc hh hk hin hid hw hwidth
  refine ⟨readOnce (formulaReads rule), readOnce_nodup _, fun r => mem_readOnce r _, ?_⟩
  rw [step, invoke_of_running exec hc hh hin, decodeFrame_currentData hid hw,
    decodePid_handler (runnable_pidsOk hc) hk, liveRequest, runDecoded, execAdded_answered hin pid hwidth, onNext_next]

/-- Settles O43: the meanings are stated at any types, and `step` is the one at the default types. -/
theorem everyTypeRunsTheSameLiveData : Obligations.EveryTypeRunsTheSameLiveData := by
  unfold Obligations.EveryTypeRunsTheSameLiveData
  refine ⟨step_eq_stepAt, fun P B _ _ _ _ s env rx rest pid hc hh hin hid hw => ⟨?_, fun hk => ?_⟩⟩
  · intro p w k hk hwidth hreads
    obtain rfl : ruleKey p = k := by simpa using hreads
    rw [stepAt, invoke_of_running execAt hc hh hin, decodeFrame_currentData hid hw,
      decodePid_handler (runnable_pidsOk hc) hk, liveRequest, runDecoded,
      execAt_paramInstr_answered hin (descriptorWidth_value hk _) hwidth, onNext_next]
  · rw [stepAt, invoke_of_running execAt hc hh hin, decodeFrame_currentData hid hw,
      decodePid_lambda (runnable_pidsOk hc) hk, runDecoded, execAt, execLambda_answered hin, onNext_next, lambdaBytes]

/-- Settles O50: with a capacity of at least 2 the scratch starts with the first two codes of the snapshot. -/
theorem storedCodesRequestAnswersFirstTwoCodes : Obligations.StoredCodesRequestAnswersFirstTwoCodes := by
  unfold Obligations.StoredCodesRequestAnswersFirstTwoCodes
  refine ⟨fun c b0 b2 => decodeWord_of_service_03 c (svcField_wordOf _ _ _), fun s env rx rest hcap hin => ?_⟩
  rw [exec, execDtcs_answered hin, codeResponseBytes_congr _ (capped_take_two hcap env.dtc)]
  rcases env.dtc with _ | ⟨a, _ | ⟨b, l⟩⟩ <;> rfl

/-- Settles O51: the service select looks at the service byte alone, and no code is sent. -/
theorem pendingAndPermanentAlwaysAnswerNone : Obligations.PendingAndPermanentAlwaysAnswerNone := by
  unfold Obligations.PendingAndPermanentAlwaysAnswerNone
  refine ⟨fun c b0 b2 => ⟨?_, ?_⟩, fun s env rx rest hin => ⟨execDtcp_answered hin, execDtcm_answered hin⟩⟩
  · exact decodeWord_of_service_07 c (svcField_wordOf b0 0x07 b2)
  · exact decodeWord_of_service_0A c (svcField_wordOf b0 0x0A b2)

end Sys2Proof.Machine
end

section
/-! SUPPORT. The supported-PID mask (42_pid_bitmask.md R180 to R187): a bit is set exactly when the table lists its PID. -/

namespace Sys2Proof.Machine

variable {P : Type}

/-- A bit of an OR over a list is set when it was set before or some element sets it. -/
theorem getLsbD_foldl_or {α : Type} (f : α → BitVec 32) (l : List α) (m : BitVec 32) (b : Nat) :
    (l.foldl (fun acc d => acc ||| f d) m).getLsbD b = (m.getLsbD b || l.any fun d => (f d).getLsbD b) := by
  induction l generalizing m with
  | nil => simp
  | cons d l ih => rw [List.foldl_cons, ih, BitVec.getLsbD_or, List.any_cons, Bool.or_assoc]

theorem getLsbD_maskOf (w : Window P) (b : Nat) :
    (maskOf w).getLsbD b = w.tab.any fun d => (pidBit w.off d.id).getLsbD b := by
  rw [maskOf, getLsbD_foldl_or]
  simp

/-- In a covered table, bit `b` stands for PID `OFF + 31 − b` (42_pid_bitmask.md R180). -/
theorem getLsbD_maskOf_iff {w : Window P} (hw : w.covers = true) {b : Nat} (hb : b ≤ 31) :
    (maskOf w).getLsbD b = true ↔ ∃ d ∈ w.tab, d.id.toNat = w.off.toNat + 31 - b := by
  rw [getLsbD_maskOf, List.any_eq_true]
  exact exists_congr fun d => and_congr_right fun hd => getLsbD_pidBit (covers_mem hw hd) b hb

theorem mem_descriptors_of_mem_window {c : Cfg P} {k : WindowIndex} {d : Descriptor P} (h : d ∈ (c.window k).tab) :
    d ∈ c.descriptors := by
  simp only [Cfg.descriptors, List.mem_append]
  cases k with
  | w0 => exact .inl (.inl h)
  | w1 => exact .inl (.inr h)
  | w2 => exact .inr h

/-- Settles O45: the query's word, then the bits of the mask it answers. -/
theorem maskQueriesReportTheirTable : Obligations.MaskQueriesReportTheirTable := by
  unfold Obligations.MaskQueriesReportTheirTable
  refine ⟨fun c k hc => ?_, fun k pid s env rx rest hk hin => ⟨maskOf (s.cfg.window k), fun b hb => ?_, ?_⟩⟩
  · rw [decodeWord_currentData, decodePid_qpid (runnable_pidsOk hc)]
  · exact getLsbD_maskOf_iff hk hb
  · rw [exec_supInstr, sendMask_answered hin hk, maskBytes]

/-- Settles O46: each bit is a disjunction over the table. -/
theorem maskIgnoresTableOrder : Obligations.MaskIgnoresTableOrder := by
  unfold Obligations.MaskIgnoresTableOrder
  intro q off l m hperm
  refine BitVec.eq_of_getLsbD_eq fun b _ => ?_
  rw [getLsbD_maskOf, getLsbD_maskOf, hperm.any_eq]

/-- The set bits of a covered table's mask are the bits of its identifiers, each once. -/
theorem setBits_perm_identifierBits {w : Window P} (hw : w.covers = true) :
    ((List.range 32).filter fun b => (maskOf w).getLsbD b).Perm
      ((w.tab.map (·.id)).dedup.map fun p => w.off.toNat + 31 - p.toNat) := by
  have inWindow : ∀ p ∈ (w.tab.map (·.id)).dedup, w.off.toNat ≤ p.toNat ∧ p.toNat ≤ w.off.toNat + 31 := by
    intro p hp
    obtain ⟨d, hd, rfl⟩ := List.mem_map.mp (List.mem_dedup.mp hp)
    exact covers_mem hw hd
  have bitsDistinct : ((w.tab.map (·.id)).dedup.map fun p => w.off.toNat + 31 - p.toNat).Nodup := by
    refine List.Nodup.map_on (fun p hp q hq h => BitVec.eq_of_toNat_eq ?_) (List.nodup_dedup _)
    have := inWindow p hp
    have := inWindow q hq
    omega
  refine (List.perm_ext_iff_of_nodup (List.nodup_range.filter _) bitsDistinct).mpr fun b => ?_
  rw [List.mem_filter, List.mem_range, List.mem_map]
  constructor
  · rintro ⟨hb, hset⟩
    obtain ⟨d, hd, hid⟩ := (getLsbD_maskOf_iff hw (by omega)).mp hset
    exact ⟨d.id, List.mem_dedup.mpr (List.mem_map_of_mem hd), by omega⟩
  · rintro ⟨p, hp, rfl⟩
    have hrange := inWindow p hp
    obtain ⟨d, hd, rfl⟩ := List.mem_map.mp (List.mem_dedup.mp hp)
    exact ⟨by omega, (getLsbD_maskOf_iff hw (by omega)).mpr ⟨d, hd, by omega⟩⟩

/-- Settles O47: the set bits and the distinct identifiers correspond one to one. -/
theorem maskCountsDistinctIdentifiers : Obligations.MaskCountsDistinctIdentifiers := by
  unfold Obligations.MaskCountsDistinctIdentifiers
  intro w hw
  rw [(setBits_perm_identifierBits hw).length_eq, List.length_map]

/-- Settles O48: a PID of the window has its own bit, set by the descriptors that carry it and by no other. -/
theorem maskBitsFollowTheTables : Obligations.MaskBitsFollowTheTables := by
  unfold Obligations.MaskBitsFollowTheTables
  intro c k hc
  have hcovers := runnable_covers hc k
  refine ⟨fun d hd => ?_, fun p hp habsent => ?_⟩
  · have hrange := covers_mem hcovers hd
    exact (getLsbD_maskOf_iff hcovers (by omega)).mpr ⟨d, hd, by omega⟩
  · have hrange : (c.window k).off.toNat ≤ p.toNat ∧ p.toNat ≤ (c.window k).off.toNat + 31 := by
      simpa [Window.holds] using hp
    refine Bool.eq_false_iff.mpr fun hset => ?_
    obtain ⟨d, hd, hid⟩ := (getLsbD_maskOf_iff hcovers (by omega)).mp hset
    exact habsent d (mem_descriptors_of_mem_window hd) (BitVec.eq_of_toNat_eq (by omega))

/-- Settles O49: the dispatcher tests the configuration first, and a query its own table. -/
theorem illFormedConfigurationIsRefused : Obligations.IllFormedConfigurationIsRefused := by
  unfold Obligations.IllFormedConfigurationIsRefused
  refine ⟨fun s hc => ?_, fun pid s env rx rest hin => ⟨?_, ?_, ?_⟩⟩
  · simp [step, invoke, hc]
  · exact fun hk => sendMask_refused (k := .w0) hin hk pid
  · exact fun hk => sendMask_refused (k := .w1) hin hk pid
  · exact fun hk => sendMask_refused (k := .w2) hin hk pid

end Sys2Proof.Machine
end

section
/-! SUPPORT. What a request does, as data: a `Reply` is a function of the request, the configuration and the collaborator
values, and is applied to a state and a bus. What a request or a step leaves unchanged, and what it cannot look at, is
read off from its reply. -/

namespace Sys2Proof.Machine

variable {P B : Type}

/-- The meaningful bytes of a response to service `svc` and PID `pid`: a value response with one, two or four payload
bytes, or a trouble-code response (30_encoding.md R83 to R86). -/
inductive ResponseForm (svc pid : Byte) : List Byte → Prop
  | value (payload : List Byte) (hsvc : svc = 0x01)
      (hlen : payload.length = 1 ∨ payload.length = 2 ∨ payload.length = 4) :
      ResponseForm svc pid (responseBytes 0x41 pid payload)
  | codes (l : List Code) (hsvc : svc = 0x03 ∨ svc = 0x07 ∨ svc = 0x0A) : ResponseForm svc pid (codeResponseBytes svc l)

/-- What a block does with a request: nothing; one response, after the reads `rs` and with a new scratch if it refreshes
that; the fatal assertion; or a refusal. -/
inductive Reply where
  | ignore
  | answer (rs : List Read) (bs : List Byte) (scr : Option (List Code))
  | fatal (rs : List Read) (pid : Byte) (width : Nat)
  | refuse

/-- The effect of a reply on a state, its response going out on bus `bus`. -/
def Reply.apply (bus : B) (s : State P B) : Reply → Result P B
  | .ignore           => .next s
  | .answer rs bs scr => .next { s.answered rs bus bs with scr := scr.or s.scr }
  | .fatal rs pid w   => .next { s with halt := true, fatal := some ⟨.fWidth, pid, w⟩, reads := s.reads ++ rs }
  | .refuse           => .refused .illFormedConfig

/-- The replies to a request with service `svc` and PID `pid` that makes the reads `rs`, in the configuration `c`: only a
stored-codes request refreshes the scratch; the assertion takes a table that gives the PID a width that is not supported,
the refusal a table with an entry outside its window. -/
inductive ReplyOk (c : Cfg P) (svc pid : Byte) (rs : List Read) : Reply → Prop
  | answer {bs : List Byte} {scr : Option (List Code)} (hform : ResponseForm svc pid bs)
      (hscr : ∀ l, scr = some l → svc = 0x03 ∧ ∃ m, l = capped c m) : ReplyOk c svc pid rs (.answer rs bs scr)
  | fatal {w : Nat} (rule : Scaling P) (hk : c.handler pid = some (.value w rule)) (h1 : w ≠ 1) (h2 : w ≠ 2) :
      ReplyOk c svc pid rs (.fatal rs pid w)
  | refuse (k : WindowIndex) (hk : (c.window k).covers = false) : ReplyOk c svc pid rs .refuse

/-- A response that leaves the scratch alone. -/
theorem replyOk_answer (c : Cfg P) {svc pid : Byte} {bs : List Byte} (hform : ResponseForm svc pid bs) (rs : List Read) :
    ReplyOk c svc pid rs (.answer rs bs none) :=
  .answer hform fun _ h => (Option.some_ne_none _ h.symm).elim

/-- A meaning replies to a request in hand with `r`, whatever the rest of the state and the type of buses. -/
def RepliesWith (c : Cfg P) (env : Env P) (meaning : (B : Type) → State P B → Result P B) (r : Reply) : Prop :=
  ∀ (B : Type) (s : State P B) (rx : Frame B) (rest : List (Input P B)), s.cfg = c →
    s.inbox = .request env rx :: rest → meaning B s = r.apply rx.bus s

/-! ## The form of the committed frame -/

theorem responseForm_valueBytes (pid : Byte) {w : Nat} (hw : w = 1 ∨ w = 2) (r : Nat) :
    ResponseForm 0x01 pid (valueBytes w pid r) := by
  rw [← responseBytes_value pid hw]
  exact .value _ rfl (by rw [bytesBE_length]; omega)

theorem responseForm_lambdaBytes (pid : Byte) (q16 : BitVec 16) : ResponseForm 0x01 pid (lambdaBytes pid q16) :=
  .value (bytesBE 2 q16.toNat ++ [0, 0]) rfl (.inr (.inr rfl))

theorem responseForm_maskBytes (pid : Byte) (m : BitVec 32) : ResponseForm 0x01 pid (maskBytes pid m) :=
  .value [m.extractLsb' 24 8, m.extractLsb' 16 8, m.extractLsb' 8 8, m.extractLsb' 0 8] rfl (.inr (.inr rfl))

/-- A byte above the declared length is `PAD_BYTE` (44_frame_sink.md R226). -/
theorem replyFrame_padded (c : Cfg P) (bus : B) (echo third : Byte) {payload : List Byte} (h : payload.length ≤ 4)
    (i : Fin 8) (hi : (replyFrame c bus (responseBytes echo third payload)).data[0].toNat < i.val) :
    (replyFrame c bus (responseBytes echo third payload)).data[i] = c.padByte := by
  have hdeclared : (replyFrame c bus (responseBytes echo third payload)).data[0].toNat = 2 + payload.length := by
    simp [replyFrame_data, responseBytes]
    omega
  rw [hdeclared] at hi
  rw [Fin.getElem_fin, replyFrame_data]
  exact List.getD_eq_default _ _ (by simp [responseBytes]; omega)

theorem frameOk_of_responseForm {svc pid : Byte} {bs : List Byte} (h : ResponseForm svc pid bs) (c : Cfg P) (bus : B) :
    FrameOk c (replyFrame c bus bs) := by
  cases h with
  | value payload _ hlen =>
    refine ⟨rfl, rfl, ?_, .inl rfl, fun hecho => absurd rfl hecho, replyFrame_padded c bus _ _ (by omega)⟩
    rw [replyFrame_data]
    obtain h | h | h := hlen <;> simp [responseBytes, h]
  | codes l hsvc =>
    have hlen : (l.take 2).length ≤ 2 := List.length_take_le 2 l
    have hbytes := codeBytes_length (l.take 2)
    refine ⟨rfl, rfl, ?_, ?_, fun _ => ?_, replyFrame_padded c bus _ _ (by omega)⟩
    · rw [replyFrame_data]
      obtain h | h | h : (l.take 2).length = 0 ∨ (l.take 2).length = 1 ∨ (l.take 2).length = 2 := by omega
      all_goals simp [codeResponseBytes, responseBytes, hbytes, h]
    · rw [replyFrame_data]
      obtain rfl | rfl | rfl := hsvc <;> simp [codeResponseBytes, responseBytes]
    · rw [replyFrame_data, replyFrame_data]
      simp [codeResponseBytes, responseBytes, codeBytes_length]
      omega

/-- The committed frame answers its own request (44_frame_sink.md R226). -/
theorem answers_of_responseForm (rx : Frame B) {bs : List Byte} (h : ResponseForm rx.data[1] rx.data[2] bs)
    (c : Cfg P) : Answers rx (replyFrame c rx.bus bs) := by
  generalize hsvc' : rx.data[1] = svc at h
  cases h with
  | value payload hsvc _ => exact ⟨rfl, by rw [hsvc', hsvc]; rfl, fun _ => rfl⟩
  | codes l hsvc =>
    have hecho : (replyFrame c rx.bus (codeResponseBytes svc l)).data[1] = 0x40 + svc := by
      rw [replyFrame_data]
      rfl
    refine ⟨rfl, by rw [hsvc', hecho]; rfl, fun h41 => ?_⟩
    rw [hecho] at h41
    obtain rfl | rfl | rfl := hsvc <;> exact absurd h41 (by decide)

/-! ## Each request -/

/-- A width that is not supported is a table's, never a rule's own. -/
theorem handler_of_descriptorWidth {c : Cfg P} {pid : Byte} {p : Param} {w : Nat}
    (h : descriptorWidth c pid (ruleWidth p) = w) (h1 : w ≠ 1) (h2 : w ≠ 2) :
    ∃ rule, c.handler pid = some (.value w rule) := by
  have hrule : ruleWidth p = 1 ∨ ruleWidth p = 2 := by cases p <;> simp [ruleWidth]
  unfold descriptorWidth at h
  split at h
  next w' rule hk => exact ⟨rule, h ▸ hk⟩
  all_goals omega

/-- A stored-codes request is the one with service 03. -/
theorem svcField_encode_eq_03_iff (i : Instr) : svcField (encode i) = 0x03 ↔ i = .dtcs := by
  obtain ⟨p, pid, rfl⟩ | ⟨k, pid, rfl⟩ | ⟨pid, rfl⟩ | rfl | rfl | rfl := instr_cases i
  · rw [encode_paramInstr, svcField_wordOf]
    cases p <;> simp [paramInstr]
  · rw [encode_supInstr, svcField_wordOf]
    cases k <;> simp [supInstr]
  · simp
  · decide
  · decide
  · decide

section OrderedField

variable [Field P] [LinearOrder P] [FloorRing P] (c : Cfg P) (env : Env P)

/-- What each of the twenty requests replies. -/
theorem execAt_replies (i : Instr) {pid : Byte} (hpid : svcField (encode i) = 0x01 → pidField (encode i) = pid) :
    ∃ r, ReplyOk c (svcField (encode i)) pid (readsOf i) r ∧ RepliesWith c env (fun _ => execAt i) r := by
  obtain ⟨p, pid', rfl⟩ | ⟨k, pid', rfl⟩ | ⟨pid', rfl⟩ | rfl | rfl | rfl := instr_cases i
  · rw [encode_paramInstr, svcField_wordOf, pidField_wordOf] at *
    obtain rfl := hpid rfl
    rw [readsOf_paramInstr]
    obtain ⟨w, hd⟩ : ∃ w, descriptorWidth c pid' (ruleWidth p) = w := ⟨_, rfl⟩
    by_cases hw : w = 1 ∨ w = 2
    · refine ⟨_, replyOk_answer c (responseForm_valueBytes pid' hw
        (encodeValue c.ties w (scaleOf p (env.value (ruleKey p))))) _, fun B s rx rest hc hin => ?_⟩
      subst hc
      exact execAt_paramInstr_answered hin hd hw
    · obtain ⟨h1, h2⟩ := not_or.mp hw
      obtain ⟨rule, hk⟩ := handler_of_descriptorWidth hd h1 h2
      refine ⟨_, .fatal rule hk h1 h2, fun B s rx rest hc hin => ?_⟩
      subst hc
      exact execAt_paramInstr_fatal hin hd h1 h2
  · rw [encode_supInstr, svcField_wordOf, pidField_wordOf] at *
    obtain rfl := hpid rfl
    cases hk : (c.window k).covers with
    | true =>
      refine ⟨_, replyOk_answer c (responseForm_maskBytes pid' (maskOf (c.window k))) _, fun B s rx rest hc hin => ?_⟩
      subst hc
      simp only [execAt_supInstr, sendMask_answered hin hk, readsOf_supInstr]
      rfl
    | false =>
      refine ⟨_, .refuse k hk, fun B s rx rest hc hin => ?_⟩
      subst hc
      simp only [execAt_supInstr, sendMask_refused hin hk]
      rfl
  · rw [encode_lambda, svcField_wordOf, pidField_wordOf] at *
    obtain rfl := hpid rfl
    refine ⟨_, replyOk_answer c (responseForm_lambdaBytes pid'
      (lambdaQ16 c.lamRule (env.value (.sensor .lambda)))) _, fun B s rx rest hc hin => ?_⟩
    subst hc
    exact execLambda_answered hin pid'
  · refine ⟨.answer [.dtcSnapshot] _ (some (capped c env.dtc)), .answer (.codes (capped c env.dtc) (.inl rfl)) ?_,
      fun B s rx rest hc hin => ?_⟩
    · exact fun l hl => ⟨rfl, env.dtc, (Option.some.inj hl).symm⟩
    · subst hc
      exact execDtcs_answered hin
  · exact ⟨_, replyOk_answer c (.codes [] (.inr (.inl rfl))) _, fun B s rx rest _ hin => execDtcp_answered hin⟩
  · exact ⟨_, replyOk_answer c (.codes [] (.inr (.inr rfl))) _, fun B s rx rest _ hin => execDtcm_answered hin⟩

/-- The request of an added descriptor replies alike (41_value_encoder.md R159). -/
theorem execAdded_replies [Inhabited P] {pid : Byte} {w : Nat} {rule : Formula P}
    (hk : c.handler pid = some (.value w (.added rule))) :
    ∃ r, ReplyOk c 0x01 pid (readOnce (formulaReads rule)) r ∧
      RepliesWith c env (fun _ => execAdded pid w rule) r := by
  by_cases hw : w = 1 ∨ w = 2
  · refine ⟨_, replyOk_answer c (responseForm_valueBytes pid hw (encodeValue c.ties w (evalFormula env rule))) _,
      fun B s rx rest hc hin => ?_⟩
    subst hc
    exact execAdded_answered hin pid hw rule
  · obtain ⟨h1, h2⟩ := not_or.mp hw
    exact ⟨_, .fatal _ hk h1 h2, fun B s rx rest _ hin => execAdded_fatal hin pid h1 h2 rule⟩

end OrderedField

/-! ## What a request leaves unchanged -/

/-- A request that answers a next state was in hand, and that state is its reply's. -/
theorem exec_reply {i : Instr} {s t : State} (h : exec i s = .next t) :
    ∃ bus r, ReplyOk s.cfg (svcField (encode i)) (pidField (encode i)) (readsOf i) r ∧ r.apply bus s = .next t := by
  obtain ⟨env, rx, rest, hin, -⟩ := exec_effect h
  obtain ⟨r, hr, hreplies⟩ := execAt_replies s.cfg env i fun _ => rfl
  rw [exec_eq_execAt] at h
  exact ⟨rx.bus, r, hr, (hreplies _ s rx rest rfl hin).symm.trans h⟩

/-- Settles O58: the frame of a request, read off from its reply. -/
theorem requestLeavesAllElseUnchanged : Obligations.RequestLeavesAllElseUnchanged := by
  unfold Obligations.RequestLeavesAllElseUnchanged
  intro i s t h
  obtain ⟨bus, r, hr, happly⟩ := exec_reply h
  cases hr with
  | @answer bs scr _ hscr =>
    cases happly
    refine ⟨rfl, rfl, List.prefix_append _ _, fun hi => ?_⟩
    cases scr with
    | none => rfl
    | some l => exact absurd ((svcField_encode_eq_03_iff i).mp (hscr l rfl).1) hi
  | fatal _ _ _ _ =>
    cases happly
    exact ⟨rfl, rfl, List.prefix_rfl, fun _ => rfl⟩
  | refuse _ _ => cases happly

/-- Settles O59: the reads of a request, read off from its reply. -/
theorem eachRequestReadsItsKeysOnce : Obligations.EachRequestReadsItsKeysOnce := by
  unfold Obligations.EachRequestReadsItsKeysOnce
  intro i s t h
  obtain ⟨bus, r, hr, happly⟩ := exec_reply h
  cases hr <;> cases happly <;> rfl

/-- Settles O37: a response leaves the latch and the record, and only generic live data raises the assertion. -/
theorem onlyGenericLiveDataCanHalt : Obligations.OnlyGenericLiveDataCanHalt := by
  unfold Obligations.OnlyGenericLiveDataCanHalt
  intro i s t h
  obtain ⟨env, rx, rest, -, ⟨rs, scr, echo, third, payload, hr⟩ | ⟨p, pid, w, rs, hi, -, -, rfl⟩⟩ := exec_effect h
  · rw [respond_next hr]
    exact .inl ⟨rfl, rfl⟩
  · exact .inr ⟨p, pid, hi, rfl⟩

/-! ## The scratch is write-only between requests -/

/-- The state with another scratch. -/
def State.withScr (scr : Option (List Code)) (s : State P B) : State P B := { s with scr := scr }

/-- A reply does the same to two states that differ in their scratch alone. -/
theorem Reply.apply_withScr {r : Reply} {bus : B} {s t : State P B} (h : r.apply bus s = .next t)
    (old : Option (List Code)) :
    ∃ u, r.apply bus (s.withScr old) = .next u ∧ u.out = t.out ∧ u.reads = t.reads ∧ u.halt = t.halt ∧
      u.fatal = t.fatal := by
  cases r <;> cases h <;> exact ⟨_, rfl, rfl, rfl, rfl, rfl⟩

/-- A stored-codes request overwrites the scratch before it reads it (43_dtc.md R202). -/
theorem execDtcs_withScr {s : State P B} {env : Env P} {rx : Frame B} {rest : List (Input P B)}
    (hin : s.inbox = .request env rx :: rest) (old : Option (List Code)) :
    execDtcs (s.withScr old) = execDtcs s := by
  have hin' : (s.withScr old).inbox = .request env rx :: rest := hin
  rw [execDtcs_answered hin, execDtcs_answered hin']
  rfl

/-- Settles O53: the reply does not depend on the scratch, and that of `DTCS` overwrites it. -/
theorem oldScratchNeverReachesAResponse : Obligations.OldScratchNeverReachesAResponse := by
  unfold Obligations.OldScratchNeverReachesAResponse
  intro i s t old h
  obtain ⟨env, rx, rest, hin, -⟩ := exec_effect h
  obtain ⟨r, -, hreplies⟩ := execAt_replies s.cfg env i fun _ => rfl
  have hs := (exec_eq_execAt i s).trans (hreplies _ s rx rest rfl hin)
  have hold := (exec_eq_execAt i (s.withScr old)).trans (hreplies _ (s.withScr old) rx rest rfl hin)
  obtain ⟨u, hu, hout, hreads, hhalt, hfatal⟩ := Reply.apply_withScr (hs.symm.trans h) old
  refine ⟨u, hold.trans hu, hout, hreads, hhalt, hfatal, fun hi => ?_⟩
  subst hi
  cases (hold.trans hu).symm.trans ((execDtcs_withScr hin old).trans h)
  rfl

end Sys2Proof.Machine
end

section
/-! SUPPORT. Steps and runs (40_dispatch.md R110, R118; 44_frame_sink.md R225; 60_exceptions.md R240 to R245): what a step
can do to the state, and from it the invariant, progress, and the count of responses along a run. -/

namespace Sys2Proof

variable {P B : Type}

/-! ## What a decoded frame says of its bytes -/

theorem fields_of_decodeWord {c : Cfg P} {w : BitVec 24} {i : Instr} (h : decodeWord c w = .request i) :
    svcField (encode i) = svcField w ∧ (svcField w = 0x01 → pidField (encode i) = pidField w) := by
  obtain ⟨hw, hd⟩ | ⟨-, -, hd⟩ | ⟨hs, hd⟩ | ⟨hs, hd⟩ | ⟨hs, hd⟩ | ⟨-, hd⟩ := decodeWord_cases c w <;> rw [hd] at h
  · obtain ⟨-, henc, -⟩ := wf_of_decodePid h
    rw [henc, ← hw]
    exact ⟨rfl, fun _ => rfl⟩
  · cases h
  · cases h
    exact ⟨hs.symm, fun h1 => absurd (hs.symm.trans h1) (by decide)⟩
  · cases h
    exact ⟨hs.symm, fun h1 => absurd (hs.symm.trans h1) (by decide)⟩
  · cases h
    exact ⟨hs.symm, fun h1 => absurd (hs.symm.trans h1) (by decide)⟩
  · cases h

theorem handler_of_decodePid_added {c : Cfg P} {p pid : Byte} {n : Nat} {rule : Formula P}
    (h : decodePid c p = .added pid n rule) : pid = p ∧ c.handler p = some (.value n (.added rule)) := by
  obtain ⟨k, -, hd⟩ | ⟨-, ⟨k, hk, hd⟩ | ⟨-, hd⟩⟩ := decodePid_cases c p <;> rw [hd] at h
  · cases h
  · rcases k with ⟨w, q | e⟩ | _ | _ <;> cases h
    exact ⟨rfl, hk⟩
  · cases h

/-- An added descriptor's request is a current-data request for a PID it handles. -/
theorem added_of_decodeWord {c : Cfg P} {w : BitVec 24} {pid : Byte} {n : Nat} {rule : Formula P}
    (h : decodeWord c w = .added pid n rule) :
    svcField w = 0x01 ∧ pid = pidField w ∧ c.handler (pidField w) = some (.value n (.added rule)) := by
  obtain ⟨hw, hd⟩ | ⟨-, -, hd⟩ | ⟨-, hd⟩ | ⟨-, hd⟩ | ⟨-, hd⟩ | ⟨-, hd⟩ := decodeWord_cases c w <;> rw [hd] at h
  · exact ⟨by rw [hw, svcField_wordOf], handler_of_decodePid_added h⟩
  all_goals cases h

/-- Only a frame with `REQ_ID` is not dropped, and its word decides. -/
theorem decodeFrame_eq_word_of_ne_drop {c : Cfg P} {f : Frame B} {d : Decoded P} (h : decodeFrame c f = d)
    (hd : ∀ x, d ≠ .drop x) : decodeWord c f.word = d := by
  by_cases hid : f.id = c.reqId
  · rwa [decodeFrame_of_id_eq hid] at h
  · rw [decodeFrame_of_id_ne hid] at h
    exact absurd h.symm (hd _)

namespace Machine

theorem answerable_eq_false_iff (c : Cfg P) (env : Env P) (rx : Frame B) :
    answerable c (.request env rx) = false ↔ ∃ d, decodeFrame c rx = .drop d := by
  cases hd : decodeFrame c rx <;> simp [answerable, hd]

section Replies

variable {s t : State P B}

/-! ## Replies, the invariant and good states -/

theorem capped_length_le {c : Cfg P} {n : Nat} (hn : c.dtcCap = some n) (l : List Code) : (capped c l).length ≤ n := by
  simp only [capped, hn]
  exact List.length_take_le n l

theorem inv_retire (h : Inv s) : Inv (retire s) := by
  obtain ⟨hrun, hhalt, hwidth, hscr, hout⟩ := h
  exact ⟨hrun, hhalt, hwidth, hscr, hout⟩

/-- The reset values meet the invariant in every configuration the model runs (decision D22). -/
theorem inv_resetBlock (h : s.cfg.runnable = true) : Inv (resetBlock s) :=
  ⟨h, rfl, fun _ hr => (Option.some_ne_none _ hr.symm).elim, fun _ hl => (Option.some_ne_none _ hl.symm).elim,
    fun _ hf => absurd hf List.not_mem_nil⟩

/-- A reply keeps the invariant. -/
theorem inv_of_reply {bus : B} {svc pid : Byte} {rs : List Read} {r : Reply} (hs : Inv s)
    (hr : ReplyOk s.cfg svc pid rs r) (h : r.apply bus s = .next t) : Inv t := by
  obtain ⟨hrun, hhalt, hwidth, hscr, hout⟩ := hs
  cases hr with
  | @answer bs scr hform hscr' =>
    cases h
    refine ⟨hrun, hhalt, hwidth, fun l hl n hn => ?_, fun f hf => ?_⟩
    · cases scr with
      | none => exact hscr l hl n hn
      | some l' =>
        obtain ⟨-, m, rfl⟩ := hscr' l' rfl
        obtain rfl : capped s.cfg m = l := Option.some.inj hl
        exact capped_length_le hn m
    · obtain hold | hnew := List.mem_append.mp hf
      · exact hout f hold
      · rw [List.mem_singleton.mp hnew]
        exact frameOk_of_responseForm hform s.cfg bus
  | @fatal w rule _ h1 h2 =>
    cases h
    refine ⟨hrun, rfl, fun r hr => ?_, hscr, hout⟩
    obtain rfl : (⟨.fWidth, pid, w⟩ : FatalRecord) = r := Option.some.inj hr
    exact ⟨h1, h2⟩
  | refuse _ _ => cases h

theorem wf_width {c : Cfg P} (hc : c.wf = true) {pid : Byte} {w : Nat} {rule : Scaling P}
    (hk : c.handler pid = some (.value w rule)) : w = 1 ∨ w = 2 := by
  have hwidths : c.widthsOk = true := by
    simp only [Cfg.wf, Bool.and_eq_true] at hc
    exact hc.2
  have hmem := ((mem_handlers_iff c _).mp (handler_mem hk)).1
  simpa [Kind.widthOk] using List.all_eq_true.mp hwidths _ hmem

/-- In a well-formed configuration the reply is a response (60_exceptions.md R240). -/
theorem replyOk_wf {c : Cfg P} {svc pid : Byte} {rs : List Read} {r : Reply} (hc : c.wf = true)
    (h : ReplyOk c svc pid rs r) : ∃ bs scr, r = .answer rs bs scr := by
  cases h with
  | @answer bs scr _ _ => exact ⟨bs, scr, rfl⟩
  | fatal rule hk h1 h2 => exact absurd (wf_width hc hk) (not_or.mpr ⟨h1, h2⟩)
  | refuse k hk => exact absurd (runnable_covers (wf_runnable hc) k) (by simp [hk])

end Replies

/-! ## One step -/

section OrderedField

variable [Field P] [LinearOrder P] [FloorRing P] [Inhabited P] {s t : State P B}

/-- A word that is not dropped is replied to, by a function of the configuration, the word and the collaborators. -/
theorem decoded_replies {c : Cfg P} {w : BitVec 24} {d : Decoded P} (hd : decodeWord c w = d) (hne : ∀ x, d ≠ .drop x)
    (env : Env P) :
    ∃ rs r, ReplyOk c (svcField w) (pidField w) rs r ∧ RepliesWith c env (fun _ => runDecoded execAt d) r := by
  cases d with
  | drop x => exact absurd rfl (hne x)
  | request i =>
    obtain ⟨hsvc, hpid⟩ := fields_of_decodeWord hd
    exact ⟨readsOf i, hsvc ▸ execAt_replies c env i (hsvc ▸ hpid)⟩
  | added pid n rule =>
    obtain ⟨hsvc, rfl, hk⟩ := added_of_decodeWord hd
    exact ⟨readOnce (formulaReads rule), hsvc ▸ execAdded_replies c env hk⟩

/-- What the decoder makes of a frame either is a drop, which does nothing, or is replied to (40_dispatch.md R119). -/
theorem runDecoded_cases {env : Env P} {rx : Frame B} {rest : List (Input P B)}
    (hin : s.inbox = .request env rx :: rest) :
    (answerable s.cfg (.request env rx) = false ∧ runDecoded execAt (decodeFrame s.cfg rx) s = .next s) ∨
    (answerable s.cfg (.request env rx) = true ∧ ∃ rs r, ReplyOk s.cfg rx.data[1] rx.data[2] rs r ∧
      runDecoded execAt (decodeFrame s.cfg rx) s = r.apply rx.bus s) := by
  cases ha : answerable s.cfg (.request env rx) with
  | false =>
    obtain ⟨d, hd⟩ := (answerable_eq_false_iff _ _ _).mp ha
    exact .inl ⟨rfl, by rw [hd]; rfl⟩
  | true =>
    have hne (x : DropClass) : decodeFrame s.cfg rx ≠ .drop x := by
      intro hx
      rw [(answerable_eq_false_iff _ _ _).mpr ⟨x, hx⟩] at ha
      cases ha
    obtain ⟨rs, r, hr, hreplies⟩ := decoded_replies (decodeFrame_eq_word_of_ne_drop rfl hne) hne env
    rw [svcField_word, pidField_word] at hr
    exact .inr ⟨rfl, rs, r, hr, hreplies _ s rx rest rfl hin⟩

/-- What a step that answers a next state did: nothing; a reset; or it took one request, which it ignored or replied to. -/
theorem stepAt_next_cases (h : stepAt s = .next t) :
    (s.inbox = [] ∧ t = s) ∨ (∃ rest, s.inbox = .reset :: rest ∧ t = retire (resetBlock s)) ∨
    (∃ env rx rest, s.inbox = .request env rx :: rest ∧ t = retire s) ∨
    (∃ env rx rest, s.inbox = .request env rx :: rest ∧ s.halt = false ∧
      ∃ rs r u, ReplyOk s.cfg rx.data[1] rx.data[2] rs r ∧ r.apply rx.bus s = .next u ∧ t = retire u) := by
  obtain ⟨hin, hs⟩ | ⟨rest, hin, hs⟩ | ⟨env, rx, rest, hin, -, hs⟩ | ⟨env, rx, rest, hin, hh, hs⟩ :=
    stepAt_cases (stepAt_next_runnable h)
  · rw [hs] at h
    cases h
    exact .inl ⟨hin, rfl⟩
  · rw [hs] at h
    cases h
    exact .inr (.inl ⟨rest, hin, rfl⟩)
  · rw [hs] at h
    cases h
    exact .inr (.inr (.inl ⟨env, rx, rest, hin, rfl⟩))
  · obtain ⟨u, hu, rfl⟩ := onNext_eq_next (hs.symm.trans h)
    obtain ⟨-, hdrop⟩ | ⟨-, rs, r, hr, hreply⟩ := runDecoded_cases hin
    · rw [hdrop] at hu
      cases hu
      exact .inr (.inr (.inl ⟨env, rx, rest, hin, rfl⟩))
    · exact .inr (.inr (.inr ⟨env, rx, rest, hin, hh, rs, r, u, hr, hreply.symm.trans hu, rfl⟩))

theorem inv_stepAt (hs : Inv s) (h : stepAt s = .next t) : Inv t := by
  obtain ⟨-, rfl⟩ | ⟨rest, -, rfl⟩ | ⟨env, rx, rest, -, rfl⟩ | ⟨env, rx, rest, -, -, rs, r, u, hr, hu, rfl⟩ :=
    stepAt_next_cases h
  · exact hs
  · exact inv_retire (inv_resetBlock hs.runnable)
  · exact inv_retire hs
  · exact inv_retire (inv_of_reply hs hr hu)

/-- A step on a request commits nothing, or one frame of the form of the request (40_dispatch.md R118, 44_frame_sink.md
R226). -/
theorem stepAt_out {env : Env P} {rx : Frame B} {rest : List (Input P B)} (hin : s.inbox = .request env rx :: rest)
    (h : stepAt s = .next t) : t.out = s.out ∨ ∃ f, t.out = s.out ++ [f] ∧ FrameOk s.cfg f ∧ Answers rx f := by
  obtain ⟨-, rfl⟩ | ⟨rest', hin', -⟩ | ⟨env', rx', rest', -, rfl⟩ | ⟨env', rx', rest', hin', -, rs, r, u, hr, hu, rfl⟩ :=
    stepAt_next_cases h
  · exact .inl rfl
  · exact absurd (hin.symm.trans hin') (by simp)
  · exact .inl rfl
  · cases hin.symm.trans hin'
    cases hr with
    | answer hform _ =>
      cases hu
      exact .inr ⟨_, rfl, frameOk_of_responseForm hform s.cfg rx.bus, answers_of_responseForm rx hform s.cfg⟩
    | fatal _ _ _ _ =>
      cases hu
      exact .inl rfl
    | refuse _ _ => cases hu

theorem stepAt_cfg (h : stepAt s = .next t) : t.cfg = s.cfg := by
  obtain ⟨-, rfl⟩ | ⟨rest, -, rfl⟩ | ⟨env, rx, rest, -, rfl⟩ | ⟨env, rx, rest, -, -, rs, r, u, hr, hu, rfl⟩ :=
    stepAt_next_cases h
  · rfl
  · rfl
  · rfl
  · cases r <;> cases hu <;> rfl

/-! ## Steps from good states -/

/-- A step from a good state: idle, a reset, an ignored request, or an answered one. -/
theorem stepAt_good_cases (hs : Good s) :
    (s.inbox = [] ∧ stepAt s = .next s) ∨
    (∃ rest, s.inbox = .reset :: rest ∧ stepAt s = .next (retire (resetBlock s))) ∨
    (∃ env rx rest, s.inbox = .request env rx :: rest ∧ answerable s.cfg (.request env rx) = false ∧
      stepAt s = .next (retire s)) ∨
    (∃ env rx rest, s.inbox = .request env rx :: rest ∧ answerable s.cfg (.request env rx) = true ∧
      ∃ rs bs scr, stepAt s = onNext retire ((Reply.answer rs bs scr).apply rx.bus s)) := by
  obtain ⟨hin, h⟩ | ⟨rest, hin, h⟩ | ⟨env, rx, rest, hin, hh, h⟩ | ⟨env, rx, rest, hin, hh, h⟩ :=
    stepAt_cases (wf_runnable hs.wf)
  · exact .inl ⟨hin, h⟩
  · exact .inr (.inl ⟨rest, hin, h⟩)
  · exact absurd (hs.running.symm.trans hh) Bool.false_ne_true
  · obtain ⟨ha, hdrop⟩ | ⟨ha, rs, r, hr, hreply⟩ := runDecoded_cases hin
    · exact .inr (.inr (.inl ⟨env, rx, rest, hin, ha, by rw [h, hdrop, onNext_next]⟩))
    · obtain ⟨bs, scr, rfl⟩ := replyOk_wf hs.wf hr
      exact .inr (.inr (.inr ⟨env, rx, rest, hin, ha, rs, bs, scr, by rw [h, hreply]⟩))

/-- Progress and preservation of good states. -/
theorem stepAt_good (hs : Good s) : ∃ t, stepAt s = .next t ∧ Good t ∧ t.cfg = s.cfg ∧ t.inbox = s.inbox.tail := by
  obtain ⟨hin, h⟩ | ⟨rest, hin, h⟩ | ⟨env, rx, rest, hin, -, h⟩ | ⟨env, rx, rest, hin, -, rs, bs, scr, h⟩ :=
    stepAt_good_cases hs
  · exact ⟨s, h, hs, rfl, by rw [hin]; rfl⟩
  · exact ⟨_, h, ⟨hs.wf, rfl⟩, rfl, rfl⟩
  · exact ⟨_, h, ⟨hs.wf, hs.running⟩, rfl, rfl⟩
  · exact ⟨_, h, ⟨hs.wf, hs.running⟩, rfl, rfl⟩

/-- A step from a good state commits one frame for an answerable input and none otherwise. -/
theorem stepAt_good_out (hs : Good s) (hr : Input.reset ∉ s.inbox.take 1) (h : stepAt s = .next t) :
    s.out <+: t.out ∧ t.out.length = s.out.length + (s.inbox.take 1).countP (answerable s.cfg) := by
  obtain ⟨hin, h'⟩ | ⟨rest, hin, -⟩ | ⟨env, rx, rest, hin, ha, h'⟩ | ⟨env, rx, rest, hin, ha, rs, bs, scr, h'⟩ :=
    stepAt_good_cases hs
  · cases h'.symm.trans h
    simp [hin]
  · exact absurd (by simp [hin]) hr
  · cases h'.symm.trans h
    simp [hin, ha]
  · cases h'.symm.trans h
    simp [hin, ha]

end OrderedField

/-! ## Runs of the machine -/

theorem run_good (k : Nat) (s : State) (hs : Good s) :
    ∃ t : State, Sys2Proof.core.run k s = .next t ∧ Good t ∧ t.cfg = s.cfg ∧ t.inbox = s.inbox.drop k := by
  induction k generalizing s with
  | zero => exact ⟨s, rfl, hs, rfl, rfl⟩
  | succ k ih =>
    obtain ⟨u, hu, hgood, hcfg, hinbox⟩ := stepAt_good hs
    obtain ⟨t, ht, htgood, htcfg, htinbox⟩ := ih u hgood
    refine ⟨t, (run_of_next ((step_eq_stepAt s).trans hu)).trans ht, htgood, htcfg.trans hcfg, ?_⟩
    rw [htinbox, hinbox, List.drop_tail]

theorem run_cfg (k : Nat) (s t : State) (h : Sys2Proof.core.run k s = .next t) : t.cfg = s.cfg := by
  induction k generalizing s with
  | zero => cases h; rfl
  | succ k ih =>
    obtain ⟨u, hu, hrun⟩ := run_succ_next h
    exact (ih u hrun).trans (stepAt_cfg ((step_eq_stepAt s).symm.trans hu))

theorem run_good_out (k : Nat) (s t : State) (hs : Good s) (hr : Input.reset ∉ s.inbox.take k)
    (h : Sys2Proof.core.run k s = .next t) :
    s.out <+: t.out ∧ t.out.length = s.out.length + (s.inbox.take k).countP (answerable s.cfg) := by
  induction k generalizing s with
  | zero =>
    cases h
    simp
  | succ k ih =>
    obtain ⟨u, hu, hrun⟩ := run_succ_next h
    have hstep : stepAt s = .next u := (step_eq_stepAt s).symm.trans hu
    obtain ⟨u', hu', hgood, hcfg, hinbox⟩ := stepAt_good hs
    cases hstep.symm.trans hu'
    have hsplit : s.inbox.take (k + 1) = s.inbox.take 1 ++ s.inbox.tail.take k := by
      rw [Nat.add_comm, List.take_add, List.drop_one]
    rw [hsplit, List.mem_append, not_or] at hr
    obtain ⟨hprefix, hlength⟩ := stepAt_good_out hs hr.1 hstep
    obtain ⟨hprefix', hlength'⟩ := ih u hgood (hinbox ▸ hr.2) hrun
    rw [hinbox, hcfg] at hlength'
    refine ⟨hprefix.trans hprefix', ?_⟩
    rw [hsplit, List.countP_append, hlength', hlength, Nat.add_assoc]

/-! ## The statements -/

/-- Settles O3: each case of a step keeps each clause. -/
theorem stepKeepsInvariant : Obligations.StepKeepsInvariant := by
  unfold Obligations.StepKeepsInvariant
  exact ⟨fun s t hs h => inv_stepAt hs ((step_eq_stepAt s).symm.trans h), fun P B _ _ _ _ s t hs h => inv_stepAt hs h⟩

/-- Settles O7, by induction on the number of steps. -/
theorem wellFormedRunNeverFaultsOrHalts : Obligations.WellFormedRunNeverFaultsOrHalts := by
  unfold Obligations.WellFormedRunNeverFaultsOrHalts
  exact run_good

/-- Settles O8, by induction on the number of steps, good states being kept. -/
theorem runAnswersEachMatchingRequestExactlyOnce : Obligations.RunAnswersEachMatchingRequestExactlyOnce := by
  unfold Obligations.RunAnswersEachMatchingRequestExactlyOnce
  exact run_good_out

/-- Settles O9, by the cases of a step from a good state. -/
theorem wellFormedStepGoesOnAtEveryType : Obligations.WellFormedStepGoesOnAtEveryType := by
  unfold Obligations.WellFormedStepGoesOnAtEveryType
  exact fun P B _ _ _ _ s hs => stepAt_good hs

/-- Settles O6, by induction on the number of steps. -/
theorem configurationIsNeverMutated : Obligations.ConfigurationIsNeverMutated := by
  unfold Obligations.ConfigurationIsNeverMutated
  exact run_cfg

/-- Settles O1: the reset values, and the step on a reset input. -/
theorem resetLeavesLatchClearAndScratchUnwritten : Obligations.ResetLeavesLatchClearAndScratchUnwritten := by
  unfold Obligations.ResetLeavesLatchClearAndScratchUnwritten
  refine ⟨⟨rfl, rfl, rfl, rfl, rfl⟩, fun s rest hc hin => ⟨retire (resetBlock s), invoke_of_reset exec hc hin, ?_⟩⟩
  simp [hin]

/-- Settles O2: a reset block meets the invariant. -/
theorem resetStateMeetsInvariant : Obligations.ResetStateMeetsInvariant := by
  unfold Obligations.ResetStateMeetsInvariant
  exact ⟨inv_resetBlock (s := State.reset) rfl,
    fun c inputs hc => inv_resetBlock (s := { State.reset with cfg := c, inbox := inputs }) hc⟩

/-- Settles O4: the dispatcher tests `HALT` before it looks at the frame. -/
theorem haltedBlockTakesNoAction : Obligations.HaltedBlockTakesNoAction := by
  unfold Obligations.HaltedBlockTakesNoAction
  intro s env rx rest hc hh hin
  rw [step, invoke_of_halted exec hc hh hin, retire, hin, List.tail_cons]

/-- Settles O5: with `HALT` = 1 a step is idle, a reset, or takes a request and changes nothing else. -/
theorem onlyResetClearsHalt : Obligations.OnlyResetClearsHalt := by
  unfold Obligations.OnlyResetClearsHalt
  intro s t h hs ht
  have clash (h0 : s.halt = false) : s.inbox.head? = some .reset := absurd (hs.symm.trans h0) (by decide)
  obtain ⟨-, rfl⟩ | ⟨rest, hin, -⟩ | ⟨env, rx, rest, -, rfl⟩ | ⟨env, rx, rest, -, hh, -⟩ :=
    stepAt_next_cases ((step_eq_stepAt s).symm.trans h)
  · exact clash ht
  · rw [hin]
    rfl
  · exact clash ht
  · exact clash hh

/-- Settles O15: the dispatcher's test of the id, then the decoder. -/
theorem stepRunsTheDecodedRequest : Obligations.StepRunsTheDecodedRequest := by
  unfold Obligations.StepRunsTheDecodedRequest
  intro s env rx rest hc hh hin hid
  have hstep : step s = onNext retire (runDecoded exec (decodeWord s.cfg rx.word) s) := by
    rw [step, invoke_of_running exec hc hh hin, decodeFrame_of_id_eq hid]
  refine ⟨fun i hi => ?_, fun d hd => ?_⟩
  · rw [hstep, hi, runDecoded]
  · rw [hstep, hd, runDecoded, onNext_next]

/-- Settles O16, by the branch of the step for an empty `inbox`. -/
theorem blockIsIdleWithoutInput : Obligations.BlockIsIdleWithoutInput := by
  unfold Obligations.BlockIsIdleWithoutInput
  intro s hc hin
  simp [step, invoke, hc, hin]

/-- The loader puts a request with `REQ_ID` and the given word at the head of `inbox`, and changes nothing else. -/
theorem placeWord_head (w : BitVec 24) (s : State) :
    (placeWord w s).cfg = s.cfg ∧ (placeWord w s).halt = s.halt ∧
    ∃ env rx rest, (placeWord w s).inbox = .request env rx :: rest ∧ rx.id = s.cfg.reqId ∧ rx.word = w := by
  unfold placeWord
  split
  · exact ⟨rfl, rfl, _, _, _, rfl, rfl, word_wordData _ _ _ w⟩
  · exact ⟨rfl, rfl, _, _, _, rfl, rfl, word_wordData _ _ _ w⟩
  · exact ⟨rfl, rfl, _, _, _, rfl, rfl, word_wordData _ _ _ w⟩

theorem tableWord_toNat (w : BitVec 24) : tableWord 24 w.toNat = w := by
  rw [tableWord, Nat.mod_eq_of_lt w.isLt, BitVec.ofNat_toNat, BitVec.setWidth_eq]

/-- Settles O17: the placed word is the instruction's own, and decodes to it. -/
theorem placedWordRunsAsItsInstruction : Obligations.PlacedWordRunsAsItsInstruction := by
  unfold Obligations.PlacedWordRunsAsItsInstruction
  intro s i hc hh hwf
  rw [State.withFetchWord, tableWord_toNat]
  obtain ⟨hcfg, hhalt, env, rx, rest, hin, hid, hword⟩ := placeWord_head (encode i) s
  refine (stepRunsTheDecodedRequest _ env rx rest (hcfg ▸ hc) (hhalt.trans hh) hin (hcfg ▸ hid)).1 i ?_
  rw [hcfg, hword, decodeWord_encode hc hwf]

/-- Settles O21: a reply commits nothing, or one frame of the form of its request. -/
theorem stepCommitsAtMostOneWellFormedFrame : Obligations.StepCommitsAtMostOneWellFormedFrame := by
  unfold Obligations.StepCommitsAtMostOneWellFormedFrame
  intro s t env rx rest hin h
  exact stepAt_out hin ((step_eq_stepAt s).symm.trans h)

end Machine

end Sys2Proof
end

section
/-! SUPPORT. What a step cannot look at (40_dispatch.md R122, decisions D5, D7): a step on a request is a reply that is a
function of the configuration, `HALT`, the collaborators, the id and the request word, so the bus is only copied and the
rest of the frame is not examined. -/

namespace Sys2Proof

variable {P B C : Type}

theorem word_congr {f g : Frame B} (h0 : f.data[0] = g.data[0]) (h1 : f.data[1] = g.data[1])
    (h2 : f.data[2] = g.data[2]) : f.word = g.word := by
  rw [Frame.word, Frame.word, h0, h1, h2]

namespace Machine

/-! ## A step as a reply -/

theorem Reply.onNext_retire_apply (r : Reply) (bus : B) (s : State P B) :
    onNext retire (r.apply bus s) = r.apply bus (retire s) := by
  cases r <;> rfl

/-- A reply's only trace of the bus is the bus of the frame it commits. -/
theorem Reply.apply_otherBus {r : Reply} {bus : B} {s t : State P B} (h : r.apply bus s = .next t) (bus' : B) :
    ∃ u, r.apply bus' s = .next u ∧ u.halt = t.halt ∧ u.fatal = t.fatal ∧ u.scr = t.scr ∧ u.reads = t.reads ∧
      u.cfg = t.cfg ∧ u.inbox = t.inbox ∧
      ((t.out = s.out ∧ u.out = s.out) ∨ ∃ f, t.out = s.out ++ [f] ∧ u.out = s.out ++ [{ f with bus := bus' }]) := by
  cases r with
  | ignore => cases h; exact ⟨_, rfl, rfl, rfl, rfl, rfl, rfl, rfl, .inl ⟨rfl, rfl⟩⟩
  | answer rs bs scr => cases h; exact ⟨_, rfl, rfl, rfl, rfl, rfl, rfl, rfl, .inr ⟨_, rfl, rfl⟩⟩
  | fatal rs pid w => cases h; exact ⟨_, rfl, rfl, rfl, rfl, rfl, rfl, rfl, .inl ⟨rfl, rfl⟩⟩
  | refuse => cases h

section OrderedField

variable [Field P] [LinearOrder P] [FloorRing P] [Inhabited P]

/-- What the decoder makes of a frame is run as a reply that depends on its id and word alone, a drop included. -/
theorem runDecoded_replies (c : Cfg P) (env : Env P) (id : CanId) (w : BitVec 24) :
    ∃ r : Reply, ∀ (B : Type) (s : State P B) (rx : Frame B) (rest : List (Input P B)), s.cfg = c →
      s.inbox = .request env rx :: rest → rx.id = id → rx.word = w →
      runDecoded execAt (decodeFrame c rx) s = r.apply rx.bus s := by
  by_cases hdrop : id = c.reqId ∧ ∀ x, decodeWord c w ≠ .drop x
  · obtain ⟨hid, hne⟩ := hdrop
    obtain ⟨-, r, -, hreplies⟩ := decoded_replies rfl hne env
    refine ⟨r, fun B s rx rest hc hin hid' hw => ?_⟩
    rw [decodeFrame_of_id_eq (hid'.trans hid), hw]
    exact hreplies B s rx rest hc hin
  · refine ⟨.ignore, fun B s rx rest _ _ hid' hw => ?_⟩
    obtain ⟨x, hx⟩ : ∃ x, decodeFrame c rx = .drop x := by
      by_cases hid : id = c.reqId
      · simp only [hid, true_and, not_forall, not_not] at hdrop
        exact hdrop.imp fun x hx => by rw [decodeFrame_of_id_eq (hid'.trans hid), hw, hx]
      · exact ⟨_, decodeFrame_of_id_ne (hid' ▸ hid)⟩
    rw [hx]
    rfl

/-- A step on a request retires it and replies to it, the reply being a function of the configuration, `HALT`, the
collaborators, the id and the request word. -/
theorem stepAt_replies (c : Cfg P) (halt : Bool) (env : Env P) (id : CanId) (w : BitVec 24) :
    ∃ r : Reply, ∀ (B : Type) (s : State P B) (rx : Frame B) (rest : List (Input P B)), s.cfg = c → s.halt = halt →
      rx.id = id → rx.word = w → stepAt (s.receiving env rx rest) = r.apply rx.bus { s with inbox := rest } := by
  cases hc : c.runnable with
  | false =>
    refine ⟨.refuse, fun B s rx rest hs _ _ _ => ?_⟩
    subst hs
    simp [stepAt, invoke, hc, Reply.apply]
  | true =>
    cases halt with
    | true =>
      refine ⟨.ignore, fun B s rx rest hs hh _ _ => ?_⟩
      subst hs
      have hin : (s.receiving env rx rest).inbox = .request env rx :: rest := rfl
      exact invoke_of_halted execAt hc hh hin
    | false =>
      obtain ⟨r, hr⟩ := runDecoded_replies c env id w
      refine ⟨r, fun B s rx rest hs hh hid hw => ?_⟩
      subst hs
      have hin : (s.receiving env rx rest).inbox = .request env rx :: rest := rfl
      rw [stepAt, invoke_of_running execAt (s := s.receiving env rx rest) hc hh hin, receiving_cfg,
        hr B (s.receiving env rx rest) rx rest rfl hin hid hw, Reply.onNext_retire_apply, retire_receiving]

end OrderedField

/-- Settles O18: two such frames get one reply, on one bus. -/
theorem dlcAndTrailingBytesAreNotExamined : Obligations.DlcAndTrailingBytesAreNotExamined := by
  unfold Obligations.DlcAndTrailingBytesAreNotExamined
  intro s env rx ry rest hid hbus h0 h1 h2
  obtain ⟨r, hr⟩ := stepAt_replies s.cfg s.halt env ry.id ry.word
  have hx := hr BusId s rx rest rfl rfl hid (word_congr h0 h1 h2)
  have hy := hr BusId s ry rest rfl rfl rfl rfl
  rw [step_eq_stepAt, step_eq_stepAt]
  exact (hbus ▸ hx).trans hy.symm

/-- Settles O19: the same request on another bus gets the same reply. -/
theorem busIsOnlyCopiedToTheResponse : Obligations.BusIsOnlyCopiedToTheResponse := by
  unfold Obligations.BusIsOnlyCopiedToTheResponse
  intro s t env rx bus rest h
  obtain ⟨r, hr⟩ := stepAt_replies s.cfg s.halt env rx.id rx.word
  have hstep := hr BusId s rx rest rfl rfl rfl rfl
  have hother := hr BusId s { rx with bus := bus } rest rfl rfl rfl rfl
  obtain ⟨u, hu, hfields⟩ := Reply.apply_otherBus (hstep.symm.trans ((step_eq_stepAt _).symm.trans h)) bus
  exact ⟨u, (step_eq_stepAt _).trans (hother.trans hu), hfields⟩

/-! ## Renaming the buses -/

section Rename

variable (g : B → C) (s : State P B)

theorem renameBuses_receiving (env : Env P) (rx : Frame B) (rest : List (Input P B)) :
    (s.receiving env rx rest).renameBuses g =
      (s.renameBuses g).receiving env (renameFrame g rx) (rest.map (renameInput g)) := rfl

theorem renameBuses_retire : (retire s).renameBuses g = retire (s.renameBuses g) := by
  simp [State.renameBuses, retire, List.map_tail]

theorem renameBuses_resetBlock : (resetBlock s).renameBuses g = resetBlock (s.renameBuses g) := rfl

theorem renameBuses_answered (rs : List Read) (bus : B) (bs : List Byte) :
    (s.answered rs bus bs).renameBuses g = (s.renameBuses g).answered rs (g bus) bs := by
  simp [State.renameBuses, State.answered, renameFrame, replyFrame]

/-- A reply copies the bus and does nothing else with it. -/
theorem Reply.apply_renameBuses (r : Reply) (bus : B) :
    r.apply (g bus) (s.renameBuses g) = renameResult g (r.apply bus s) := by
  cases r with
  | ignore => rfl
  | answer rs bs scr =>
    have hanswered := renameBuses_answered g s rs bus bs
    simp only [Reply.apply, renameResult, ← hanswered]
    rfl
  | fatal rs pid w => rfl
  | refuse => rfl

/-- Renaming the buses of all frames commutes with the step (00_scope.md R6, decision D7). -/
theorem stepAt_renameBuses [Field P] [LinearOrder P] [FloorRing P] [Inhabited P] :
    stepAt (s.renameBuses g) = renameResult g (stepAt s) := by
  rcases hin : s.inbox with _ | ⟨⟨env, rx⟩ | _, rest⟩
  · cases hc : s.cfg.runnable <;> simp [stepAt, invoke, hc, hin, renameResult]
  · obtain ⟨r, hr⟩ := stepAt_replies s.cfg s.halt env rx.id rx.word
    have hs : s = s.receiving env rx rest := by rw [State.receiving, ← hin]
    rw [hs, renameBuses_receiving, hr B s rx rest rfl rfl rfl rfl, ← Reply.apply_renameBuses]
    exact hr C (s.renameBuses g) (renameFrame g rx) _ rfl rfl rfl rfl
  · cases hc : s.cfg.runnable with
    | false => simp [stepAt, invoke, hc, renameResult]
    | true =>
      have hin' : (s.renameBuses g).inbox = .reset :: rest.map (renameInput g) := by
        rw [renameBuses_inbox, hin]
        rfl
      rw [stepAt, stepAt, invoke_of_reset execAt hc hin, invoke_of_reset execAt (s := s.renameBuses g) hc hin',
        renameResult, renameBuses_retire, renameBuses_resetBlock]

end Rename

theorem renameResult_eq_onNext (g : B → B) (r : Result P B) : renameResult g r = onNext (State.renameBuses g) r := by
  cases r <;> rfl

/-- Settles O20: a reply copies the bus of its request, and the default types are a case of it. -/
theorem busNamesAreOpaque : Obligations.BusNamesAreOpaque := by
  unfold Obligations.BusNamesAreOpaque
  refine ⟨fun P B C _ _ _ _ g s => stepAt_renameBuses g s, fun g s => ?_⟩
  rw [step_eq_stepAt, step_eq_stepAt, stepAt_renameBuses, renameResult_eq_onNext]

end Machine

end Sys2Proof
end
